-- ==== Sys2Proof/Word.lean ====
section
/-! DEFINITION. Sys2Proof/Word.lean: the one word type of the machine (00_scope.md R7; 20_memory.md R40, R47). -/

namespace Sys2Proof

/-- A 16-bit unsigned word: every register value, memory word, operand and address (R7). Its `+` and `-` are
the spec's additions and subtractions modulo 65536. -/
abbrev Word := BitVec 16

end Sys2Proof
end

