-- ==== Sys2Proof/Config.lean ====
section
/-! DEFINITION. Sys2Proof/Config.lean: what is fixed at construction: the register set, the nine mnemonics, and
the parameters of 00_scope.md R6 other than the memory size (which the memory itself holds, 10_state.md R32). -/

namespace Sys2Proof

/-- The twelve registers in their canonical order (10_state.md R20; the count is 90_conflicts.md C1). -/
inductive Reg where
  | ip | acc | r1 | r2 | r3 | r4 | r5 | r6 | r7 | r8 | sp | fp
  deriving DecidableEq, Repr

/-- The nine mnemonics of the instruction set (30_encoding.md R63; 90_conflicts.md C2). -/
inductive Op where
  | movLitReg | movRegReg | movRegMem | movMemReg | addRegReg | jumpNotEq | pushLit | pushReg | pop
  deriving DecidableEq, Repr

/-- `P_OPCODE`: the opcode word of each mnemonic (30_encoding.md R63). -/
structure OpcodeMap where
  movLitReg : Word
  movRegReg : Word
  movRegMem : Word
  movMemReg : Word
  addRegReg : Word
  jumpNotEq : Word
  pushLit : Word
  pushReg : Word
  pop : Word
  deriving DecidableEq, Repr

/-- The image of `P_OPCODE`, in the order of R63's table. -/
def OpcodeMap.words (m : OpcodeMap) : List Word :=
  [m.movLitReg, m.movRegReg, m.movRegMem, m.movMemReg, m.addRegReg, m.jumpNotEq, m.pushLit, m.pushReg, m.pop]

/-- `P_OPCODE` is injective (30_encoding.md R63), which makes at most one arm of the dispatcher match (R84). -/
abbrev OpcodeMap.Injective (m : OpcodeMap) : Prop := m.words.Nodup

/-- R63's default assignment, which the spec marks as general knowledge (decision D13; UNVERIFIED, unsafe; log entry 2). -/
def OpcodeMap.default : OpcodeMap where
  movLitReg := 0x0010
  movRegReg := 0x0011
  movRegMem := 0x0012
  movMemReg := 0x0013
  addRegReg := 0x0014
  jumpNotEq := 0x0015
  pushLit := 0x0017
  pushReg := 0x0018
  pop := 0x001A

/-- `P_UNKNOWN_OPCODE` (00_scope.md R6, decision D5). -/
inductive UnknownOpcodePolicy where
  | fault | skip
  deriving DecidableEq, Repr

/-- `P_STACK_CHECK` (00_scope.md R6, decision D12). -/
inductive StackCheck where
  | checked | unchecked
  deriving DecidableEq, Repr

/-- The construction parameters of R6. `P_MEM_WORDS` is not here: the memory holds its own size. -/
structure Config where
  /-- `P_OPCODE` -/
  opcodes : OpcodeMap
  /-- `P_UNKNOWN_OPCODE` -/
  unknownOpcode : UnknownOpcodePolicy
  /-- `P_STACK_CHECK` -/
  stackCheck : StackCheck
  /-- `P_END_IP`, read by the host alone (70_reset_and_hazards.md R199) -/
  endIp : Option Word
  deriving DecidableEq, Repr

/-- The defaults of R6; `P_END_IP` has none in the spec and is `none` here (DESIGN CHOICE, unsafe; log entry 9). -/
def Config.default : Config where
  opcodes := OpcodeMap.default
  unknownOpcode := .fault
  stackCheck := .checked
  endIp := none

end Sys2Proof
end

