-- ==== Sys2Proof/Syntax.lean ====
section
/-! DEFINITION. Sys2Proof/Syntax.lean: the instructions, one constructor per row of spec/opcode_table.json, each
with its operands in fetch order (30_encoding.md R61). An `R` operand stands as the register its word names (R65;
DESIGN CHOICE, safe; log entry 7); literals, addresses and the raw indices of ADD_REG_REG stand as the words they
are (R64, R66, R67). -/

namespace Sys2Proof

inductive Instr where
  /-- MOV_LIT_REG (R100) -/
  | movLitReg (lit : Word) (rd : Reg)
  /-- MOV_REG_REG (R101) -/
  | movRegReg (rs rd : Reg)
  /-- MOV_REG_MEM (R102) -/
  | movRegMem (rs : Reg) (a : Word)
  /-- MOV_MEM_REG (R103) -/
  | movMemReg (a : Word) (rd : Reg)
  /-- ADD_REG_REG (R120) -/
  | addRegReg (i1 i2 : Word)
  /-- JUMP_NOT_EQ (R130) -/
  | jumpNotEq (lit t : Word)
  /-- PUSH_LIT (R142) -/
  | pushLit (lit : Word)
  /-- PUSH_REG (R143) -/
  | pushReg (rs : Reg)
  /-- POP (R144) -/
  | pop (rd : Reg)
  deriving DecidableEq, Repr

end Sys2Proof
end

