-- ==== Sys2Proof/WellFormed.lean ====
section
/-! DEFINITION. Sys2Proof/WellFormed.lean: which instructions carry only legal operand words. -/

namespace Sys2Proof

/-- Operand words are never illegal, with one exception: a raw index of 12 or more in ADD_REG_REG
(30_encoding.md R70). Such an instruction still decodes; running it raises InvalidRegisterIndex (R120). -/
def Instr.wellFormed : Instr → Bool
  | .movLitReg _ _ => true
  | .movRegReg _ _ => true
  | .movRegMem _ _ => true
  | .movMemReg _ _ => true
  | .addRegReg i1 i2 => decide (i1.toNat < 12) && decide (i2.toNat < 12)
  | .jumpNotEq _ _ => true
  | .pushLit _ => true
  | .pushReg _ => true
  | .pop _ => true

end Sys2Proof
end

