-- ==== Sys2Proof/Decode.lean ====
section
/-! DEFINITION. Sys2Proof/Decode.lean: the decoder, total on any list of words, and the encoder
(30_encoding.md R60 to R71). The operand reader of an opcode is written once; the decoder below runs it on a
list of words, and the machine's fetch unit runs the same reader on memory. -/

namespace Sys2Proof

/-- The register an `R` operand word names: the word modulo 12, as an index of R20's table
(30_encoding.md R65; 40_execution_cycle.md R82). -/
def Reg.ofWord (w : Word) : Reg :=
  match w.toNat % 12 with
  | 0 => .ip
  | 1 => .acc
  | 2 => .r1
  | 3 => .r2
  | 4 => .r3
  | 5 => .r4
  | 6 => .r5
  | 7 => .r6
  | 8 => .r7
  | 9 => .r8
  | 10 => .sp
  | _ => .fp

/-- The index of a register (10_state.md R20, decision D2). -/
def Reg.index : Reg → Word
  | .ip => 0
  | .acc => 1
  | .r1 => 2
  | .r2 => 3
  | .r3 => 4
  | .r4 => 5
  | .r5 => 6
  | .r6 => 7
  | .r7 => 8
  | .r8 => 9
  | .sp => 10
  | .fp => 11

/-- The opcode word of a mnemonic under a map (R63). -/
def OpcodeMap.word (m : OpcodeMap) : Op → Word
  | .movLitReg => m.movLitReg
  | .movRegReg => m.movRegReg
  | .movRegMem => m.movRegMem
  | .movMemReg => m.movMemReg
  | .addRegReg => m.addRegReg
  | .jumpNotEq => m.jumpNotEq
  | .pushLit => m.pushLit
  | .pushReg => m.pushReg
  | .pop => m.pop

/-- The mnemonic an opcode word selects, all 16 bits compared (R62), in the order of the dispatcher's arms
(40_execution_cycle.md R84); `none` for an unknown opcode (R69). -/
def OpcodeMap.find? (m : OpcodeMap) (w : Word) : Option Op :=
  if w = m.movLitReg then some .movLitReg
  else if w = m.movRegReg then some .movRegReg
  else if w = m.movRegMem then some .movRegMem
  else if w = m.movMemReg then some .movMemReg
  else if w = m.addRegReg then some .addRegReg
  else if w = m.jumpNotEq then some .jumpNotEq
  else if w = m.pushLit then some .pushLit
  else if w = m.pushReg then some .pushReg
  else if w = m.pop then some .pop
  else none

/-- Reading an instruction's operand words one at a time: finished, or one more word is needed. -/
inductive Reader where
  | done (i : Instr)
  | need (next : Word → Reader)

/-- The operand reads of each opcode, in fetch order (R61, R68; the `let` lines of R100 to R144). -/
def Op.reader : Op → Reader
  | .movLitReg => .need fun lit => .need fun rd => .done (.movLitReg lit (Reg.ofWord rd))
  | .movRegReg => .need fun rs => .need fun rd => .done (.movRegReg (Reg.ofWord rs) (Reg.ofWord rd))
  | .movRegMem => .need fun rs => .need fun a => .done (.movRegMem (Reg.ofWord rs) a)
  | .movMemReg => .need fun a => .need fun rd => .done (.movMemReg a (Reg.ofWord rd))
  | .addRegReg => .need fun i1 => .need fun i2 => .done (.addRegReg i1 i2)
  | .jumpNotEq => .need fun lit => .need fun t => .done (.jumpNotEq lit t)
  | .pushLit => .need fun lit => .done (.pushLit lit)
  | .pushReg => .need fun rs => .done (.pushReg (Reg.ofWord rs))
  | .pop => .need fun rd => .done (.pop (Reg.ofWord rd))

/-- A reader run on a list of words: the instruction and the words left, or `none` if the words run out. -/
def Reader.run : Reader → List Word → Option (Instr × List Word)
  | .done i, rest => some (i, rest)
  | .need _, [] => none
  | .need next, w :: rest => (next w).run rest

/-- What decoding a list of words finds. -/
inductive Decoded where
  /-- an instruction, and the words after it -/
  | instr (i : Instr) (rest : List Word)
  /-- the first word is no opcode (R69) -/
  | unknownOpcode (w : Word)
  /-- the first word is this opcode, but its operand words are not all there (R71) -/
  | truncated (k : Op)
  /-- there is no word at all -/
  | noWord
  deriving DecidableEq, Repr

/-- The decoder: the opcode word alone fixes how many operand words follow and what they mean (R60, R71). -/
def decode (m : OpcodeMap) : List Word → Decoded
  | [] => .noWord
  | w :: rest =>
    match m.find? w with
    | none => .unknownOpcode w
    | some k =>
      match k.reader.run rest with
      | none => .truncated k
      | some (i, rest') => .instr i rest'

/-- The mnemonic of an instruction. -/
def Instr.op : Instr → Op
  | .movLitReg _ _ => .movLitReg
  | .movRegReg _ _ => .movRegReg
  | .movRegMem _ _ => .movRegMem
  | .movMemReg _ _ => .movMemReg
  | .addRegReg _ _ => .addRegReg
  | .jumpNotEq _ _ => .jumpNotEq
  | .pushLit _ => .pushLit
  | .pushReg _ => .pushReg
  | .pop _ => .pop

/-- The operand words of an instruction in the order of R61's format table; a register is written as its index. -/
def Instr.operands : Instr → List Word
  | .movLitReg lit rd => [lit, rd.index]
  | .movRegReg rs rd => [rs.index, rd.index]
  | .movRegMem rs a => [rs.index, a]
  | .movMemReg a rd => [a, rd.index]
  | .addRegReg i1 i2 => [i1, i2]
  | .jumpNotEq lit t => [lit, t]
  | .pushLit lit => [lit]
  | .pushReg rs => [rs.index]
  | .pop rd => [rd.index]

/-- The length of an instruction in words, the column "length" of R61's format table. -/
def Instr.length : Instr → Nat
  | .movLitReg _ _ => 3
  | .movRegReg _ _ => 3
  | .movRegMem _ _ => 3
  | .movMemReg _ _ => 3
  | .addRegReg _ _ => 3
  | .jumpNotEq _ _ => 3
  | .pushLit _ => 2
  | .pushReg _ => 2
  | .pop _ => 2

/-- The words of an instruction: its opcode word, then its operand words (R60, R61). -/
def encode (m : OpcodeMap) (i : Instr) : List Word := m.word i.op :: i.operands

/-- The three words that a row of spec/opcode_table.json stands for: bits 15..0 are the first word, and every
bit from `nbits` up is 0. Three words is the longest instruction (R61). -/
def tableWords (nbits w : Nat) : List Word :=
  let bits := w % 2 ^ nbits
  [BitVec.ofNat 16 bits, BitVec.ofNat 16 (bits / 2 ^ 16), BitVec.ofNat 16 (bits / 2 ^ 32)]

/-- The instruction the decoder reads from a row's bits, under the table's own opcode values (R63's default). -/
def decodeTableWord (nbits w : Nat) : Option Instr :=
  match decode OpcodeMap.default (tableWords nbits w) with
  | .instr i _ => some i
  | .unknownOpcode _ => none
  | .truncated _ => none
  | .noWord => none

end Sys2Proof
end

