-- ==== Sys2Proof/Machine/State.lean ====
section
/-! DEFINITION. Sys2Proof/Machine/State.lean: the machine's state as plain data, the reasons a step stops, and
construction, which is the machine's only reset (10_state.md; 70_reset_and_hazards.md R190). -/

namespace Sys2Proof.Machine

/-- The codes of the faults that a step raises and the status latch holds, with the source's names
(60_exceptions.md R162, codes 1 to 5). -/
inductive FaultCode where
  /-- a memory access at an address outside [0, N) (R163) -/
  | outOfBoundsMemoryAccess
  /-- an opcode word outside `P_OPCODE` under the policy `fault` (R164) -/
  | unknownOpcode
  /-- a push at sp = 0 under `checked` (R165) -/
  | stackOverflow
  /-- a pop at sp >= N-1 under `checked` (R166) -/
  | stackUnderflow
  /-- a raw index of 12 or more in ADD_REG_REG (R167) -/
  | invalidRegisterIndex
  deriving DecidableEq, Repr

/-- A fault record (R161): the code, the offending address or word, and the address of the opcode word of the
faulting instruction. -/
structure FaultRecord where
  code : FaultCode
  info : Word
  ip : Word
  deriving DecidableEq, Repr

/-- The status latch (10_state.md R29). The record exists exactly while the core is HALTED. -/
inductive Status where
  | running
  | halted (record : FaultRecord)
  deriving DecidableEq, Repr

/-- The register file: twelve 16-bit slots (10_state.md R20). -/
structure RegFile where
  ip : Word
  acc : Word
  r1 : Word
  r2 : Word
  r3 : Word
  r4 : Word
  r5 : Word
  r6 : Word
  r7 : Word
  r8 : Word
  sp : Word
  fp : Word
  deriving DecidableEq, Repr

/-- One listed word of memory: its word address and its value. The smallest unit the spec addresses is the
16-bit word (20_memory.md R40, R45), so a cell holds a word (DESIGN CHOICE, safe; log entry 4). -/
abbrev Cell := Nat × Word

/-- What an address that no cell lists reads as: memory is zero-filled (10_state.md R34). -/
def Memory.blank : Word := 0

/-- The memory M (10_state.md R32). `last` is N-1, the highest address, so N is always in 1..65536 (R6).
`cells` lists the words that are not `Memory.blank`, at strictly rising addresses. -/
structure Memory where
  last : Word
  cells : List Cell
  deriving DecidableEq, Repr

/-- N, the number of words (`P_MEM_WORDS`). -/
def Memory.size (m : Memory) : Nat := m.last.toNat + 1

/-- The canonical form of the cells from address `lo` up to `last`: strictly rising addresses, none past the
end, no blank value. -/
def cellsWf (last : Nat) : Nat → List Cell → Bool
  | _, [] => true
  | lo, (a, v) :: rest => decide (lo ≤ a) && decide (a ≤ last) && (v != Memory.blank) && cellsWf last (a + 1) rest

/-- The memory is in canonical form, so that equal memories are equal data. -/
def Memory.wf (m : Memory) : Bool := cellsWf m.last.toNat 0 m.cells

/-- Everything the machine holds. -/
structure State where
  /-- the register file (R20) -/
  regs : RegFile
  /-- the memory the CPU owns (R32) -/
  mem : Memory
  /-- the status latch (R29) -/
  status : Status
  /-- the construction parameters, which no step changes (R33; DESIGN CHOICE, safe; log entry 3) -/
  config : Config
  deriving DecidableEq, Repr

/-- Why a step stops the run. -/
inductive Fault where
  /-- Raised by `step` on a core that is already HALTED: it changes no state and returns the latched record
  (60_exceptions.md R171). Safe: the spec's own answer. The step that first raises a fault is no stop: it answers
  the next state, HALTED with the record (R170; DEDUCED, safe; log entry 5). -/
  | halted (record : FaultRecord)
  deriving DecidableEq, Repr

/-- Why the model refuses an instruction. -/
inductive Refusal where
  /-- Raised by an arm of `exec` that has no meaning yet; no arm is left so. Safe: nothing is claimed of such
  an instruction. -/
  | notModelled (mnemonic : String)
  deriving DecidableEq, Repr

/-- The registers after construction on a memory whose highest address is `last`: sp and fp are N-1, the rest
0 (10_state.md R34). -/
def RegFile.initial (last : Word) : RegFile where
  ip := 0
  acc := 0
  r1 := 0
  r2 := 0
  r3 := 0
  r4 := 0
  r5 := 0
  r6 := 0
  r7 := 0
  r8 := 0
  sp := last
  fp := last

/-- `newCPU(memory)`: construction, the machine's only reset. The memory is kept as the host left it
(70_reset_and_hazards.md R190). -/
def newCPU (config : Config) (mem : Memory) : State where
  regs := RegFile.initial mem.last
  mem := mem
  status := .running
  config := config

/-- The memory of `State.reset`: 65536 words, the most the spec admits (DESIGN CHOICE, unsafe; log entry 1), all blank. -/
def Memory.ofReset : Memory where
  last := 0xFFFF
  cells := []

/-- The machine right after reset: constructed with the default parameters on a memory the host wrote nothing
into (R34). -/
def State.reset : State := newCPU Config.default Memory.ofReset

end Sys2Proof.Machine
end

