-- ==== Sys2Proof/Machine/Ops.lean ====
section
/-! DEFINITION. Sys2Proof/Machine/Ops.lean: the named operations over registers and memory, the fetch unit, the
stack primitives and taking a fault. An operation that can raise answers `Except Raise`; `raise E(info)` of the
spec's pseudocode is `.error ⟨E, info⟩` (00_scope.md R11). -/

namespace Sys2Proof.Machine

/-- What `raise E(info)` carries (R11). -/
structure Raise where
  code : FaultCode
  info : Word
  deriving DecidableEq, Repr

/-- `x[r]` (00_scope.md R9). -/
def RegFile.read (f : RegFile) : Reg → Word
  | .ip => f.ip
  | .acc => f.acc
  | .r1 => f.r1
  | .r2 => f.r2
  | .r3 => f.r3
  | .r4 => f.r4
  | .r5 => f.r5
  | .r6 => f.r6
  | .r7 => f.r7
  | .r8 => f.r8
  | .sp => f.sp
  | .fp => f.fp

/-- `x[r] <- v` (00_scope.md R9). No register is hard-wired (10_state.md R22). -/
def RegFile.write (f : RegFile) (r : Reg) (v : Word) : RegFile :=
  match r with
  | .ip => { f with ip := v }
  | .acc => { f with acc := v }
  | .r1 => { f with r1 := v }
  | .r2 => { f with r2 := v }
  | .r3 => { f with r3 := v }
  | .r4 => { f with r4 := v }
  | .r5 => { f with r5 := v }
  | .r6 => { f with r6 := v }
  | .r7 => { f with r7 := v }
  | .r8 => { f with r8 := v }
  | .sp => { f with sp := v }
  | .fp => { f with fp := v }

/-- The machine's read of a register. -/
def State.readReg (s : State) (r : Reg) : Word := s.regs.read r

/-- The machine's write of a register. -/
def State.writeReg (s : State) (r : Reg) (v : Word) : State := { s with regs := s.regs.write r v }

/-- The word listed at an address, or the blank word (10_state.md R34). -/
def readCells : List Cell → Nat → Word
  | [], _ => Memory.blank
  | (b, v) :: rest, a => if b = a then v else readCells rest a

/-- A cell put before others, or left out where its word is the blank one. -/
def consCell (a : Nat) (v : Word) (rest : List Cell) : List Cell :=
  if v = Memory.blank then rest else (a, v) :: rest

/-- The cells after a write, in canonical form again. -/
def writeCells : List Cell → Nat → Word → List Cell
  | [], a, v => consCell a v []
  | (b, u) :: rest, a, v =>
    if a < b then consCell a v ((b, u) :: rest)
    else if a = b then consCell a v rest
    else (b, u) :: writeCells rest a v

/-- The address exists: addr < N (20_memory.md R40). -/
def Memory.has (m : Memory) (a : Word) : Bool := decide (a.toNat < m.size)

/-- `M[a]`. -/
def Memory.read (m : Memory) (a : Word) : Word := readCells m.cells a.toNat

/-- `M[a] <- v`. -/
def Memory.write (m : Memory) (a v : Word) : Memory := { m with cells := writeCells m.cells a.toNat v }

/-- `M[a]` of the machine's memory. -/
def State.wordAt (s : State) (a : Word) : Word := s.mem.read a

/-- `MemRead(addr, 1)` (20_memory.md R42). -/
def State.memRead (s : State) (a : Word) : Except Raise Word :=
  if s.mem.has a then .ok (s.mem.read a) else .error ⟨.outOfBoundsMemoryAccess, a⟩

/-- `MemWrite(addr, 1, v)` (20_memory.md R43). -/
def State.memWrite (s : State) (a v : Word) : Except Raise State :=
  if s.mem.has a then .ok { s with mem := s.mem.write a v } else .error ⟨.outOfBoundsMemoryAccess, a⟩

/-- The state with ip moved past `n` words, modulo 65536 (40_execution_cycle.md R85, R89). -/
def State.advance (s : State) (n : Nat) : State := s.writeReg .ip (s.readReg .ip + BitVec.ofNat 16 n)

/-- `fetch()`: the word at ip, and ip incremented (40_execution_cycle.md R80). -/
def State.fetch (s : State) : Except Raise (Word × State) :=
  match s.memRead (s.readReg .ip) with
  | .error e => .error e
  | .ok w => .ok (w, s.advance 1)

/-- An operand reader run on memory: one `fetch` for each word it needs (30_encoding.md R68). -/
def State.fetchOperands : Reader → State → Except Raise (Instr × State)
  | .done i, s => .ok (i, s)
  | .need next, s =>
    match s.fetch with
    | .error e => .error e
    | .ok (w, s') => State.fetchOperands (next w) s'

/-- What the fetch unit finds at ip. -/
inductive Fetched where
  /-- an instruction with all its operand words -/
  | instr (i : Instr)
  /-- a word that is no opcode -/
  | unknown (op : Word)
  deriving DecidableEq, Repr

/-- Fetching the opcode word and then exactly its operand words (40_execution_cycle.md R83 to R85), with the
state after the last fetch. -/
def State.fetchInstr (s : State) : Except Raise (Fetched × State) :=
  match s.fetch with
  | .error e => .error e
  | .ok (op, s1) =>
    match s.config.opcodes.find? op with
    | none => .ok (.unknown op, s1)
    | some k =>
      match s1.fetchOperands k.reader with
      | .error e => .error e
      | .ok (i, s2) => .ok (.instr i, s2)

/-- Taking a fault (60_exceptions.md R170; 40_execution_cycle.md R88). `s` is the state before the step: its
registers and memory are kept, the status becomes HALTED, and the record stores the code, the info and ip0.
There is no return from a fault beside it: only construction leaves HALTED (R171, R172). -/
def State.takeFault (s : State) (e : Raise) : State :=
  { s with status := .halted ⟨e.code, e.info, s.readReg .ip⟩ }

/-- The end of a step that began in `s`: the action's state, or, where the action raised, the fault taken in
`s`, with nothing of the action kept (40_execution_cycle.md R83). -/
def State.finish (s : State) (action : Except Raise State) : Host.Outcome State Fault Refusal :=
  match action with
  | .ok s' => .next s'
  | .error e => .next (s.takeFault e)

/-- `UNKNOWN(op)`: the dispatcher's arm for a word that is no opcode (60_exceptions.md R164). -/
def State.unknownOpcode (s : State) (op : Word) : Host.Outcome State Fault Refusal :=
  match s.config.unknownOpcode with
  | .fault => s.finish (.error ⟨.unknownOpcode, op⟩)
  | .skip => s.finish (.ok (s.advance 1))

/-- `push(v)` (44_stack.md R140). -/
def State.push (s : State) (v : Word) : Except Raise State :=
  let sp := s.readReg .sp
  if s.config.stackCheck = .checked ∧ sp = 0 then .error ⟨.stackOverflow, sp⟩
  else
    match s.memWrite sp v with
    | .error e => .error e
    | .ok s' => .ok (s'.writeReg .sp (sp - 1))

/-- `pop(i)` (44_stack.md R141): sp moves first, then the register is written. -/
def State.pop (s : State) (rd : Reg) : Except Raise State :=
  let sp := s.readReg .sp
  if s.config.stackCheck = .checked ∧ s.mem.size - 1 ≤ sp.toNat then .error ⟨.stackUnderflow, sp⟩
  else
    match s.memRead (sp + 1) with
    | .error e => .error e
    | .ok v => .ok ((s.writeReg .sp (sp + 1)).writeReg rd v)

/-- Words placed at consecutive addresses from `a`, as the host's direct writes before a run place a program
(70_reset_and_hazards.md R192). An address that does not exist takes no word. Only `State.withFetchWord` uses it, to
set up a state to step from; it is no move of the host's, whose writes are `Session.write` (R195; log entry 11). -/
def State.placeWords (s : State) (a : Word) : List Word → State
  | [] => s
  | w :: rest =>
    let s' := if s.mem.has a then { s with mem := s.mem.write a w } else s
    s'.placeWords (a + 1) rest

end Sys2Proof.Machine
end

