-- ==== Sys2Proof/Machine/Flags.lean ====
section
/-! DEFINITION. Sys2Proof/Machine/Flags.lean: the core has no flags, condition codes or predicate registers
(10_state.md R28). What stands in their place: an addition that keeps no carry, and a comparison with acc. -/

namespace Sys2Proof.Machine

/-- The sum modulo 2^16; the carry out of bit 15 is kept nowhere (42_arithmetic.md R121). -/
def sum16 (a b : Word) : Word := a + b

/-- The condition of JUMP_NOT_EQ: a full 16-bit comparison with acc (43_control.md R130). -/
def State.differsFromAcc (s : State) (lit : Word) : Bool := decide (lit ≠ s.readReg .acc)

end Sys2Proof.Machine
end

