-- ==== Sys2Proof/Machine/Operands.lean ====
section
/-! DEFINITION. Sys2Proof/Machine/Operands.lean: what each operand kind of 30_encoding.md R61 stands for when an
action runs. `L` and `A` operands are used as the words they are (R64, R67). An `R` operand was reduced when it
was fetched (R65, R82). What is left is the raw index `X` of ADD_REG_REG (R66). -/

namespace Sys2Proof.Machine

/-- The register a raw index names; a word of 12 or more names none and raises (42_arithmetic.md R120,
60_exceptions.md R167, decision D6). -/
def rawRegister (w : Word) : Except Raise Reg :=
  if w.toNat < 12 then .ok (Reg.ofWord w) else .error ⟨.invalidRegisterIndex, w⟩

end Sys2Proof.Machine
end

