-- ==== Sys2Proof/Machine/Arithmetic.lean ====
section
/-! DEFINITION. Sys2Proof/Machine/Arithmetic.lean: the one arithmetic instruction (42_arithmetic.md). -/

namespace Sys2Proof.Machine

/-- ADD_REG_REG (R120): both raw indices are checked, the first one first, then acc takes the sum. -/
def execAddRegReg (i1 i2 : Word) (s : State) : Host.Outcome State Fault Refusal :=
  s.finish
    (match rawRegister i1 with
    | .error e => .error e
    | .ok ra =>
      match rawRegister i2 with
      | .error e => .error e
      | .ok rb =>
        .ok ((s.advance 3).writeReg .acc (sum16 ((s.advance 3).readReg ra) ((s.advance 3).readReg rb))))

end Sys2Proof.Machine
end

