-- ==== Sys2Proof/Machine/Control.lean ====
section
/-! DEFINITION. Sys2Proof/Machine/Control.lean: the one dedicated control transfer (43_control.md). -/

namespace Sys2Proof.Machine

/-- JUMP_NOT_EQ (R130): the target is taken as it is; only the next fetch checks it. -/
def execJumpNotEq (lit t : Word) (s : State) : Host.Outcome State Fault Refusal :=
  s.finish
    (.ok (if (s.advance 3).differsFromAcc lit then (s.advance 3).writeReg .ip t else s.advance 3))

end Sys2Proof.Machine
end

