-- ==== Sys2Proof/Machine/DataMovement.lean ====
section
/-! DEFINITION. Sys2Proof/Machine/DataMovement.lean: the four moves (41_data_movement.md). A meaning starts from
the state before the step; its action runs with ip already past the instruction's words (40_execution_cycle.md
R85; DEDUCED, safe; log entry 6). -/

namespace Sys2Proof.Machine

/-- MOV_LIT_REG (R100). -/
def execMovLitReg (lit : Word) (rd : Reg) (s : State) : Host.Outcome State Fault Refusal :=
  s.finish (.ok ((s.advance 3).writeReg rd lit))

/-- MOV_REG_REG (R101). -/
def execMovRegReg (rs rd : Reg) (s : State) : Host.Outcome State Fault Refusal :=
  s.finish (.ok ((s.advance 3).writeReg rd ((s.advance 3).readReg rs)))

/-- MOV_REG_MEM (R102). -/
def execMovRegMem (rs : Reg) (a : Word) (s : State) : Host.Outcome State Fault Refusal :=
  s.finish ((s.advance 3).memWrite a ((s.advance 3).readReg rs))

/-- MOV_MEM_REG (R103). -/
def execMovMemReg (a : Word) (rd : Reg) (s : State) : Host.Outcome State Fault Refusal :=
  s.finish
    (match (s.advance 3).memRead a with
    | .error e => .error e
    | .ok v => .ok ((s.advance 3).writeReg rd v))

end Sys2Proof.Machine
end

