-- ==== Sys2Proof/Machine/Stack.lean ====
section
/-! DEFINITION. Sys2Proof/Machine/Stack.lean: the stack instructions over `push` and `pop` (44_stack.md). -/

namespace Sys2Proof.Machine

/-- PUSH_LIT (R142). -/
def execPushLit (lit : Word) (s : State) : Host.Outcome State Fault Refusal :=
  s.finish ((s.advance 2).push lit)

/-- PUSH_REG (R143): the register is read before push moves sp. -/
def execPushReg (rs : Reg) (s : State) : Host.Outcome State Fault Refusal :=
  s.finish ((s.advance 2).push ((s.advance 2).readReg rs))

/-- POP (R144). -/
def execPop (rd : Reg) (s : State) : Host.Outcome State Fault Refusal :=
  s.finish ((s.advance 2).pop rd)

end Sys2Proof.Machine
end

