-- ==== Sys2Proof/Machine/Dispatch.lean ====
section
/-! DEFINITION. Sys2Proof/Machine/Dispatch.lean: one arm per instruction (40_execution_cycle.md R84). Like
`execute`, it does not look at the status; `step` does (R83; DEDUCED, safe; log entry 8). -/

namespace Sys2Proof.Machine

def exec (i : Instr) (s : State) : Host.Outcome State Fault Refusal :=
  match i with
  | .movLitReg lit rd => Sys2Proof.Machine.execMovLitReg lit rd s
  | .movRegReg rs rd => Sys2Proof.Machine.execMovRegReg rs rd s
  | .movRegMem rs a => Sys2Proof.Machine.execMovRegMem rs a s
  | .movMemReg a rd => Sys2Proof.Machine.execMovMemReg a rd s
  | .addRegReg i1 i2 => Sys2Proof.Machine.execAddRegReg i1 i2 s
  | .jumpNotEq lit t => Sys2Proof.Machine.execJumpNotEq lit t s
  | .pushLit lit => Sys2Proof.Machine.execPushLit lit s
  | .pushReg rs => Sys2Proof.Machine.execPushReg rs s
  | .pop rd => Sys2Proof.Machine.execPop rd s

end Sys2Proof.Machine
end

