-- ==== Sys2Proof/Machine/Step.lean ====
section
/-! DEFINITION. Sys2Proof/Machine/Step.lean: one step (40_execution_cycle.md R83, R90, R91). -/

namespace Sys2Proof.Machine

/-- `step()` (R83). A HALTED core changes nothing and returns its record (60_exceptions.md R171). A RUNNING core
fetches one instruction and runs it; a fault in the fetch is taken in the state before the step. -/
def step (s : State) : Host.Outcome State Fault Refusal :=
  match s.status with
  | .halted record => .fault (.halted record)
  | .running =>
    match s.fetchInstr with
    | .error e => s.finish (.error e)
    | .ok (.unknown op, _) => s.unknownOpcode op
    | .ok (.instr i, _) => exec i s

/-- The state with the words of an opcode-table row stored at ip and the two addresses after it, where a
RUNNING core's next step fetches them. It stands for the host's load of a program (DEDUCED, safe; log entry 11). -/
def State.withFetchWord (s : State) (nbits w : Nat) : State :=
  s.placeWords (s.readReg .ip) (tableWords nbits w)

end Sys2Proof.Machine
end

