-- ==== Sys2Proof/Machine/HostInterface.lean ====
section
/-! DEFINITION. Sys2Proof/Machine/HostInterface.lean: what the host can do to the machine
(70_reset_and_hazards.md R190 to R199): make a memory, write words into it until the first step, construct the
CPU, call `step` and the queries. A `Session` says how far a host is, and so which moves it has: it has no register
write at all, and no memory write after the first step (R195, R198). -/

namespace Sys2Proof.Machine

/-- `createMemory(size)`: zero-filled words; a size outside 1..65536 is refused (R191, decision D1). -/
def createMemory (size : Nat) : Option Memory :=
  if 1 ≤ size ∧ size ≤ 65536 then some { last := BitVec.ofNat 16 (size - 1), cells := [] } else none

/-- The host's direct write of one word of M (R192, R195); `Session.write` says when the host has it. There is no
word to write at an address that does not exist (DESIGN CHOICE, safe; log entry 13). -/
def hostWrite (m : Memory) (a v : Word) : Option Memory :=
  if m.has a then some (m.write a v) else none

/-- Host writes one after the other. -/
def hostWrites : Memory → List (Word × Word) → Option Memory
  | m, [] => some m
  | m, (a, v) :: rest =>
    match hostWrite m a v with
    | none => none
    | some m' => hostWrites m' rest

/-- The boot order of R192. A map `P_OPCODE` that is not injective is no parameter value (30_encoding.md R63), so
no CPU is constructed for it (DESIGN CHOICE, safe; log entry 12). -/
def boot (config : Config) (size : Nat) (writes : List (Word × Word)) : Option State :=
  if config.opcodes.Injective then
    match createMemory size with
    | none => none
    | some m =>
      match hostWrites m writes with
      | none => none
      | some m' => some (newCPU config m')
  else none

/-- `P_IMAGE_BYTE_ORDER`: how a host that loads a byte image makes words of it. It is a parameter of the host's
load and not of the core (20_memory.md R45, decision D4). -/
inductive ByteOrder where
  | little | big
  deriving DecidableEq, Repr

/-- The word of two bytes, `b0` the one that comes first in the image. -/
def imageWord (order : ByteOrder) (b0 b1 : BitVec 8) : Word :=
  match order with
  | .little => b1 ++ b0
  | .big => b0 ++ b1

/-- The words of a byte image; an image of an odd number of bytes is no sequence of words (DESIGN CHOICE, safe; log
entry 13). -/
def imageWords (order : ByteOrder) : List (BitVec 8) → Option (List Word)
  | [] => some []
  | [_] => none
  | b0 :: b1 :: rest =>
    match imageWords order rest with
    | none => none
    | some ws => some (imageWord order b0 b1 :: ws)

/-- The host writes that put words at ascending addresses from `a` (20_memory.md R48; R192). -/
def ascendingWrites (a : Word) : List Word → List (Word × Word)
  | [] => []
  | w :: rest => (a, w) :: ascendingWrites (a + 1) rest

/-- Booting on a byte image placed from address 0; an image longer than the memory is refused. -/
def bootImage (config : Config) (size : Nat) (order : ByteOrder) (bytes : List (BitVec 8)) : Option State :=
  match imageWords order bytes with
  | none => none
  | some ws => if ws.length ≤ size then boot config size (ascendingWrites 0 ws) else none

/-- The number of a latched fault code (60_exceptions.md R162, decision D8). -/
def FaultCode.number : FaultCode → Nat
  | .outOfBoundsMemoryAccess => 1
  | .unknownOpcode => 2
  | .stackOverflow => 3
  | .stackUnderflow => 4
  | .invalidRegisterIndex => 5

/-- A register's name (10_state.md R20). -/
def regName : Reg → String
  | .ip => "ip"
  | .acc => "acc"
  | .r1 => "r1"
  | .r2 => "r2"
  | .r3 => "r3"
  | .r4 => "r4"
  | .r5 => "r5"
  | .r6 => "r6"
  | .r7 => "r7"
  | .r8 => "r8"
  | .sp => "sp"
  | .fp => "fp"

/-- The twelve registers in canonical order (R20). -/
def allRegs : List Reg := [.ip, .acc, .r1, .r2, .r3, .r4, .r5, .r6, .r7, .r8, .sp, .fp]

/-- The register of a name: an exact, case-sensitive match (70_reset_and_hazards.md R196, decision D19). -/
def regOfName (name : String) : Option Reg := allRegs.find? fun r => regName r == name

/-- An error a host query returns. It is not latched and does not halt the core (60_exceptions.md R168; R197). -/
inductive HostError where
  /-- `getRegister` of a name that is no register's (R168) -/
  | unknownRegister
  /-- `viewMemoryAt` of an address outside [0, N) (R197) -/
  | outOfBoundsMemoryAccess (address : Word)
  deriving DecidableEq, Repr

/-- The code number of a host error (60_exceptions.md R162). -/
def HostError.number : HostError → Nat
  | .outOfBoundsMemoryAccess _ => 1
  | .unknownRegister => 6

/-- `getRegister(name)` (R196). -/
def State.getRegister (s : State) (name : String) : Except HostError Word :=
  match regOfName name with
  | none => .error .unknownRegister
  | some r => .ok (s.readReg r)

/-- The operations the host may call on a constructed CPU (R194). -/
inductive HostCall where
  | step
  | getRegister (name : String)
  | debug
  | viewMemoryAt (address : Word)
  deriving DecidableEq, Repr

/-- What the host gets back. -/
inductive HostReply where
  /-- `step` completed an instruction and the core is RUNNING (40_execution_cycle.md R90) -/
  | ok
  /-- `step` of a core that is now HALTED, with its record (R90) -/
  | fault (record : FaultRecord)
  /-- a memory write or a construction was made -/
  | done
  /-- the value of a register -/
  | value (v : Word)
  /-- text or words for external tooling, whose form is out of scope (00_scope.md R5; DESIGN CHOICE, safe; log entry 10) -/
  | shown
  /-- an error result of a query -/
  | error (e : HostError)
  /-- `step` of an instruction without a meaning; no arm of `exec` is left without one -/
  | refused (r : Refusal)
  deriving DecidableEq, Repr

/-- What `step` reports, read from the status latch (10_state.md R29: "the host reads it as the result of
`step`"; 40_execution_cycle.md R90). -/
def State.stepReply (s : State) : HostReply :=
  match s.status with
  | .running => .ok
  | .halted record => .fault record

/-- One host call: the state after it and the reply (R83, R90, R196, R197). -/
def hostCall (c : HostCall) (s : State) : State × HostReply :=
  match c with
  | .step =>
    match step s with
    | .next s' => (s', s'.stepReply)
    | .fault (.halted record) => (s, .fault record)
    | .refused r => (s, .refused r)
  | .getRegister name =>
    match s.getRegister name with
    | .ok v => (s, .value v)
    | .error e => (s, .error e)
  | .debug => (s, .shown)
  | .viewMemoryAt address =>
    if s.mem.has address then (s, .shown) else (s, .error (.outOfBoundsMemoryAccess address))

/-- How far a host is with its one memory (R192): the memory alone, a CPU that has taken no step, or a CPU on a
memory that a step has been taken on. Whether the first step is past is the host's affair and no state of the core
(10_state.md R31), so it stands here and not in `State` (DESIGN CHOICE, safe; log entry 14). -/
inductive Session where
  | created (mem : Memory)
  | constructed (cpu : State)
  | stepped (cpu : State)
  deriving DecidableEq, Repr

/-- The session's memory. -/
def Session.memory : Session → Memory
  | .created mem => mem
  | .constructed cpu => cpu.mem
  | .stepped cpu => cpu.mem

/-- A host write to memory: any word of M from `createMemory` until the first step, before and after construction;
after the first step the host has no such move (R195, decision D17). -/
def Session.write (h : Session) (a v : Word) : Option Session :=
  match h with
  | .created mem =>
    match hostWrite mem a v with
    | none => none
    | some mem' => some (.created mem')
  | .constructed cpu =>
    match hostWrite cpu.mem a v with
    | none => none
    | some mem' => some (.constructed { cpu with mem := mem' })
  | .stepped _ => none

/-- `newCPU` on the session's memory, which is kept as it is (R190), also to leave HALTED (60_exceptions.md R171).
A map `P_OPCODE` that is not injective is refused, as `boot` refuses it (log entry 12). Construction on a memory
that a step has been taken on does not open the write window again (DESIGN CHOICE, safe; log entry 14). -/
def Session.construct (h : Session) (config : Config) : Option Session :=
  if config.opcodes.Injective then
    match h with
    | .created mem => some (.constructed (newCPU config mem))
    | .constructed cpu => some (.constructed (newCPU config cpu.mem))
    | .stepped cpu => some (.stepped (newCPU config cpu.mem))
  else none

/-- A call of the CPU (R194), which there is none of before construction. `step` ends the write window. -/
def Session.call (h : Session) (c : HostCall) : Option (Session × HostReply) :=
  match h with
  | .created _ => none
  | .constructed cpu =>
    some (if c = .step then .stepped (hostCall c cpu).1 else .constructed (hostCall c cpu).1, (hostCall c cpu).2)
  | .stepped cpu => some (.stepped (hostCall c cpu).1, (hostCall c cpu).2)

/-- Everything a host can do once it has a memory. -/
inductive HostMove where
  | write (a v : Word)
  | newCPU (config : Config)
  | call (c : HostCall)
  deriving DecidableEq, Repr

/-- A move of the host: the session after it and the reply, or `none` where the host has no such move. -/
def hostMove (mv : HostMove) (h : Session) : Option (Session × HostReply) :=
  match mv with
  | .write a v => (h.write a v).map fun h' => (h', .done)
  | .newCPU config => (h.construct config).map fun h' => (h', .done)
  | .call c => h.call c

/-- Moves of the host in order, or `none` where one of them is not to be had. -/
def hostMoves : List HostMove → Session → Option Session
  | [], h => some h
  | mv :: rest, h =>
    match hostMove mv h with
    | none => none
    | some (h', _) => hostMoves rest h'

/-- The state after `n` calls of `step`. -/
def afterSteps : Nat → State → State
  | 0, s => s
  | n + 1, s => afterSteps n (hostCall .step s).1

/-- How a run stands at an instruction boundary (R199). -/
inductive RunEnd where
  | goesOn
  | endsNormally
  | endsInFault (record : FaultRecord)
  deriving DecidableEq, Repr

/-- The end of a run, from the parameter `P_END_IP` (R199): the core itself stops at no address. DESIGN CHOICE, unsafe
(log entry 15): every state between two steps is an instruction boundary, the reset state among them. -/
def State.runEnd (s : State) : RunEnd :=
  match s.status with
  | .halted record => .endsInFault record
  | .running => if s.config.endIp = some (s.readReg .ip) then .endsNormally else .goesOn

/-- A run of at most `fuel` steps: no step is taken from a state where the run has ended (R199). DESIGN CHOICE, unsafe
(log entry 15): that holds of the state the run starts from too, so with `P_END_IP = 0` a run from reset ends with no
step taken. -/
def run : Nat → State → State
  | 0, s => s
  | fuel + 1, s =>
    match s.runEnd with
    | .goesOn => run fuel (hostCall .step s).1
    | .endsNormally => s
    | .endsInFault _ => s

end Sys2Proof.Machine
end

