-- ==== Sys2Proof/Safety.lean ====
section
/-! DEFINITION. Sys2Proof/Safety.lean: the terms the statements use: the state invariant, what a latched record
claims, and which registers an instruction names, reads without naming, and writes. -/

namespace Sys2Proof.Machine

/-- The core is RUNNING (10_state.md R29). -/
abbrev State.Running (s : State) : Prop := s.status = .running

/-- What a latched record says of the state it halted in, which is the state before the faulting step
(60_exceptions.md R161 to R167, R170): the record's ip is the core's ip, and the info names a real offence. -/
def State.recordHolds (s : State) (r : FaultRecord) : Bool :=
  decide (r.ip = s.readReg .ip) &&
  match r.code with
  | .outOfBoundsMemoryAccess => !s.mem.has r.info
  | .unknownOpcode =>
    decide (s.config.opcodes.find? r.info = none) && decide (s.config.unknownOpcode = .fault) &&
      s.mem.has (s.readReg .ip) && decide (s.wordAt (s.readReg .ip) = r.info)
  | .stackOverflow => decide (r.info = s.readReg .sp) && decide (r.info = 0) && decide (s.config.stackCheck = .checked)
  | .stackUnderflow =>
    decide (r.info = s.readReg .sp) && decide (s.mem.size - 1 ≤ r.info.toNat) && decide (s.config.stackCheck = .checked)
  | .invalidRegisterIndex => decide (12 ≤ r.info.toNat)

/-- The latch tells the truth about the state. -/
def State.latchHolds (s : State) : Bool :=
  match s.status with
  | .running => true
  | .halted r => s.recordHolds r

/-- The state invariant: memory in canonical form, an injective `P_OPCODE`, a truthful latch. -/
def State.wf (s : State) : Bool := s.mem.wf && decide s.config.opcodes.Injective && s.latchHolds

/-- A host's session is well formed: its memory is canonical, a CPU that has taken no step is as construction left
it but for host writes, and a CPU that has meets the state invariant. -/
def Session.wf : Session → Bool
  | .created mem => mem.wf
  | .constructed cpu => cpu.wf && decide (cpu = newCPU cpu.config cpu.mem)
  | .stepped cpu => cpu.wf

/-- The state a fault of `s` leaves: `s` itself but for the latch, which holds the code, the info and ip0
(60_exceptions.md R161, R170). -/
def State.haltedWith (s : State) (code : FaultCode) (info : Word) : State :=
  { s with status := .halted { code := code, info := info, ip := s.readReg .ip } }

/-- The value a register operand has for the action of an instruction of `n` words: ip is already past the
instruction (40_execution_cycle.md R85, decision D15). -/
def State.operand (s : State) (n : Nat) (r : Reg) : Word :=
  if r = .ip then s.readReg .ip + BitVec.ofNat 16 n else s.readReg r

/-- From `s` to `t` every register but ip and `written` keeps its value, and the latch and the parameters stay. -/
def KeepsOthers (s t : State) (written : List Reg) : Prop :=
  (∀ q, q ≠ .ip → q ∉ written → t.readReg q = s.readReg q) ∧ t.status = s.status ∧ t.config = s.config

/-- From `s` to `t` the memory keeps its size and every word but those at the addresses `stored`. -/
def KeepsMemory (s t : State) (stored : List Word) : Prop :=
  t.mem.size = s.mem.size ∧ ∀ b, b ∉ stored → t.wordAt b = s.wordAt b

/-- `step` on a RUNNING core whose ip stands at the opcode word of the three-word instruction `k`: each operand
word is fetched in turn, a fetch at an address >= N halts the core there, and then `make` of the two words runs. -/
def FetchesTwoOperands (k : Op) (make : Word → Word → Instr) : Prop :=
  ∀ s : State, s.Running → s.config.opcodes.Injective → (s.readReg .ip).toNat < s.mem.size →
    s.wordAt (s.readReg .ip) = s.config.opcodes.word k →
    if s.mem.size ≤ (s.readReg .ip + 1).toNat then
      step s = .next (s.haltedWith .outOfBoundsMemoryAccess (s.readReg .ip + 1))
    else if s.mem.size ≤ (s.readReg .ip + 2).toNat then
      step s = .next (s.haltedWith .outOfBoundsMemoryAccess (s.readReg .ip + 2))
    else step s = exec (make (s.wordAt (s.readReg .ip + 1)) (s.wordAt (s.readReg .ip + 2))) s

/-- The same for a two-word instruction. -/
def FetchesOneOperand (k : Op) (make : Word → Instr) : Prop :=
  ∀ s : State, s.Running → s.config.opcodes.Injective → (s.readReg .ip).toNat < s.mem.size →
    s.wordAt (s.readReg .ip) = s.config.opcodes.word k →
    if s.mem.size ≤ (s.readReg .ip + 1).toNat then
      step s = .next (s.haltedWith .outOfBoundsMemoryAccess (s.readReg .ip + 1))
    else step s = exec (make (s.wordAt (s.readReg .ip + 1))) s

/-- The words `ws` stand in memory at consecutive addresses from `a`, all of which exist. -/
def State.HoldsWords (s : State) (a : Word) : List Word → Prop
  | [] => True
  | w :: rest => a.toNat < s.mem.size ∧ s.wordAt a = w ∧ s.HoldsWords (a + 1) rest

/-- `k` calls of `fetch` in a row: the words they return and the state they leave. -/
def fetchTimes : Nat → State → Except Raise (List Word × State)
  | 0, s => .ok ([], s)
  | k + 1, s =>
    match s.fetch with
    | .error e => .error e
    | .ok (w, s') =>
      match fetchTimes k s' with
      | .error e => .error e
      | .ok (ws, s'') => .ok (w :: ws, s'')

/-- A function applied to the next state, where there is one. -/
def onNext (f : State → State) : Host.Outcome State Fault Refusal → Host.Outcome State Fault Refusal
  | .next s => .next (f s)
  | .fault r => .fault r
  | .refused r => .refused r

/-- The fault codes an instruction's own action can raise, its fetches apart (60_exceptions.md R163 to R167). -/
def actionFaults : Instr → List FaultCode
  | .movLitReg _ _ => []
  | .movRegReg _ _ => []
  | .movRegMem _ _ => [.outOfBoundsMemoryAccess]
  | .movMemReg _ _ => [.outOfBoundsMemoryAccess]
  | .addRegReg _ _ => [.invalidRegisterIndex]
  | .jumpNotEq _ _ => []
  | .pushLit _ => [.stackOverflow, .outOfBoundsMemoryAccess]
  | .pushReg _ => [.stackOverflow, .outOfBoundsMemoryAccess]
  | .pop _ => [.stackUnderflow, .outOfBoundsMemoryAccess]

end Sys2Proof.Machine

namespace Sys2Proof

/-- The operand kinds of 30_encoding.md R61: literal `L`, register index `R`, raw register index `X`, address `A`. -/
inductive OperandKind where
  | literal | register | raw | address
  deriving DecidableEq, Repr

/-- The operand kinds of each mnemonic in fetch order, the format table of 30_encoding.md R61. -/
def Op.format : Op → List OperandKind
  | .movLitReg => [.literal, .register]
  | .movRegReg => [.register, .register]
  | .movRegMem => [.register, .address]
  | .movMemReg => [.address, .register]
  | .addRegReg => [.raw, .raw]
  | .jumpNotEq => [.literal, .address]
  | .pushLit => [.literal]
  | .pushReg => [.register]
  | .pop => [.register]

/-- The register an instruction's operand names as its destination, if it has one. -/
def Instr.destination : Instr → Option Reg
  | .movLitReg _ rd => some rd
  | .movRegReg _ rd => some rd
  | .movRegMem _ _ => none
  | .movMemReg _ rd => some rd
  | .addRegReg _ _ => none
  | .jumpNotEq _ _ => none
  | .pushLit _ => none
  | .pushReg _ => none
  | .pop rd => some rd

/-- An operand of the instruction names the register, as a source or as the destination (10_state.md R22). -/
def Instr.names (i : Instr) (q : Reg) : Bool :=
  match i with
  | .movLitReg _ rd => rd == q
  | .movRegReg rs rd => rs == q || rd == q
  | .movRegMem rs _ => rs == q
  | .movMemReg _ rd => rd == q
  | .addRegReg i1 i2 =>
    (decide (i1.toNat < 12) && Reg.ofWord i1 == q) || (decide (i2.toNat < 12) && Reg.ofWord i2 == q)
  | .jumpNotEq _ _ => false
  | .pushLit _ => false
  | .pushReg rs => rs == q
  | .pop rd => rd == q

/-- The registers an instruction writes on the way to a next state: ip always, acc by ADD_REG_REG (R24), sp by
the stack instructions (R26), and the named destination (R22). -/
def Instr.writes (i : Instr) (q : Reg) : Bool :=
  q == .ip || i.destination == some q ||
  match i with
  | .addRegReg _ _ => q == .acc
  | .pushLit _ => q == .sp
  | .pushReg _ => q == .sp
  | .pop _ => q == .sp
  | .movLitReg _ _ => false
  | .movRegReg _ _ => false
  | .movRegMem _ _ => false
  | .movMemReg _ _ => false
  | .jumpNotEq _ _ => false

/-- The one address an instruction may store to, from the state before the step (20_memory.md R41). -/
def Instr.storeAddress (i : Instr) (s : Machine.State) : Option Word :=
  match i with
  | .movRegMem _ a => some a
  | .pushLit _ => some (s.readReg .sp)
  | .pushReg _ => some (s.readReg .sp)
  | .movLitReg _ _ => none
  | .movRegReg _ _ => none
  | .movMemReg _ _ => none
  | .addRegReg _ _ => none
  | .jumpNotEq _ _ => none
  | .pop _ => none

end Sys2Proof
end

