-- ==== Sys2Proof/Certificates/Slice0/Obligations.lean ====
section
/-! DEFINITION. Sys2Proof/Certificates/Slice0/Obligations.lean: the statements for the provers. -/

open Sys2Proof Sys2Proof.Machine

/-! ### Encoding -/

/-- One instruction of each row of R63's table, its words written out from R61 and R63. The opcode values are the
spec's default, which it marks as general knowledge (decision D13; log entry 2). -/
def Obligations.DefaultWordsDecode : Prop :=
  decode OpcodeMap.default [0x0010, 0x1234, 0x0002] = .instr (.movLitReg 0x1234 .r1) [] ∧
  decode OpcodeMap.default [0x0011, 0x0001, 0x0002] = .instr (.movRegReg .acc .r1) [] ∧
  decode OpcodeMap.default [0x0012, 0x0001, 0x0014] = .instr (.movRegMem .acc 0x0014) [] ∧
  decode OpcodeMap.default [0x0013, 0x0014, 0x0004] = .instr (.movMemReg 0x0014 .r3) [] ∧
  decode OpcodeMap.default [0x0014, 0x0002, 0x000C] = .instr (.addRegReg 0x0002 0x000C) [] ∧
  decode OpcodeMap.default [0x0015, 0x0003, 0x0009] = .instr (.jumpNotEq 0x0003 0x0009) [] ∧
  decode OpcodeMap.default [0x0017, 0x0005] = .instr (.pushLit 0x0005) [] ∧
  decode OpcodeMap.default [0x0018, 0x0016] = .instr (.pushReg .sp) [] ∧
  decode OpcodeMap.default [0x001A, 0x000B] = .instr (.pop .fp) []

/-- Decoding the words of an instruction gives it back with every operand, under every injective `P_OPCODE`, and
leaves the words after it (30_encoding.md R60 to R68). -/
def Obligations.DecodeOfEncode : Prop :=
  ∀ (m : OpcodeMap) (i : Instr) (rest : List Word), m.Injective → decode m (encode m i ++ rest) = .instr i rest

/-- What decodes was written as the encoder writes it: the opcode word, then as many operand words as R61's format
has, each of them the encoder's own word, except at the format's `R` operands, where the encoder's word is the word
used modulo 12 (R65). No word is skipped or read twice. -/
def Obligations.DecodedWordsAreEncoded : Prop :=
  ∀ (m : OpcodeMap) (ws : List Word) (i : Instr) (rest : List Word), decode m ws = .instr i rest →
    ∃ used canonical, ws = m.word i.op :: used ++ rest ∧ encode m i = m.word i.op :: canonical ∧
      used.length + 1 = i.length ∧ canonical.length = used.length ∧ i.op.format.length = used.length ∧
      ∀ (k : Nat) (u c : Word) (kind : OperandKind),
        used[k]? = some u → canonical[k]? = some c → i.op.format[k]? = some kind →
        if kind = .register then c.toNat = u.toNat % 12 else u = c

/-- R60: the opcode word alone fixes which instruction it is and how many words it takes. -/
def Obligations.OpcodeFixesArity : Prop :=
  ∀ (m : OpcodeMap) (w : Word) (ws1 ws2 rest1 rest2 : List Word) (i1 i2 : Instr),
    decode m (w :: ws1) = .instr i1 rest1 → decode m (w :: ws2) = .instr i2 rest2 →
    i1.op = i2.op ∧ (w :: ws1).length = i1.length + rest1.length ∧ (w :: ws2).length = i1.length + rest2.length

/-- R62 and R69: a word is an opcode exactly when all its 16 bits equal one of the nine values, and it then
selects that mnemonic. The full-word comparison is the spec's choice ("full-word equality is the spec's choice",
decision D14). -/
def Obligations.UnknownExactlyOutsideMap : Prop :=
  ∀ (m : OpcodeMap), m.Injective → ∀ (w : Word) (rest : List Word),
    (decode m (w :: rest) = .unknownOpcode w ↔ ∀ k : Op, m.word k ≠ w) ∧
    ∀ k : Op, m.find? w = some k ↔ m.word k = w

/-- R65: a register operand word names the register with its value modulo 12 as index, in every instruction
that has one, so every word is a legal register operand. -/
def Obligations.RegisterOperandsReduceModulo12 : Prop :=
  (∀ w, (Reg.ofWord w).index.toNat = w.toNat % 12) ∧
  Reg.ofWord 0x000C = .ip ∧ Reg.ofWord 0x000D = .acc ∧ Reg.ofWord 0xFFFF = .r2 ∧
  ∀ (m : OpcodeMap) (u w : Word) (rest : List Word), m.Injective →
    decode m (m.movLitReg :: u :: w :: rest) = .instr (.movLitReg u (Reg.ofWord w)) rest ∧
    decode m (m.movRegReg :: u :: w :: rest) = .instr (.movRegReg (Reg.ofWord u) (Reg.ofWord w)) rest ∧
    decode m (m.movRegMem :: u :: w :: rest) = .instr (.movRegMem (Reg.ofWord u) w) rest ∧
    decode m (m.movMemReg :: u :: w :: rest) = .instr (.movMemReg u (Reg.ofWord w)) rest ∧
    decode m (m.pushReg :: w :: rest) = .instr (.pushReg (Reg.ofWord w)) rest ∧
    decode m (m.pop :: w :: rest) = .instr (.pop (Reg.ofWord w)) rest

/-! ### Memory -/

/-- R43: MemWrite changes the one word it addresses and nothing else, and raises at an address >= N. -/
def Obligations.MemWriteChangesOneWord : Prop :=
  ∀ (s : State) (a v : Word), s.mem.wf = true →
    (s.mem.size ≤ a.toNat → s.memWrite a v = .error ⟨.outOfBoundsMemoryAccess, a⟩) ∧
    (a.toNat < s.mem.size → ∃ t, s.memWrite a v = .ok t ∧ t.wordAt a = v ∧ KeepsMemory s t [a] ∧
      t.regs = s.regs ∧ t.status = s.status ∧ t.config = s.config)

/-- The canonical form does its work: two memories of one size that read alike at every address are the same
data (log entry 4). -/
def Obligations.EqualReadsAreEqualMemories : Prop :=
  ∀ m m' : Memory, m.wf = true → m'.wf = true → m.last = m'.last → (∀ a, m.read a = m'.read a) → m = m'

/-- R56: a word of memory keeps its value in every step but one that stores to its own address; popping clears
nothing. -/
def Obligations.WordsKeptUnlessStored : Prop :=
  ∀ (s t : State) (a : Word), step s = .next t → t.wordAt a ≠ s.wordAt a →
    ∃ (i : Instr) (s' : State), s.fetchInstr = .ok (.instr i, s') ∧ i.storeAddress s = some a

/-- R54, which the spec marks as derived: a store to the word after the instruction is what the next step fetches as
its opcode word. -/
def Obligations.StoreSeenByNextFetch : Prop :=
  ∀ (s : State) (rs : Reg), s.mem.wf = true → (s.readReg .ip + 3).toNat < s.mem.size →
    ∃ t u, exec (.movRegMem rs (s.readReg .ip + 3)) s = .next t ∧ t.fetch = .ok (s.operand 3 rs, u)

/-- R44, which the spec marks as derived: with N = 65536 no step raises OutOfBoundsMemoryAccess. -/
def Obligations.FullMemoryNeverOutOfBounds : Prop :=
  ∀ (s t : State) (r : FaultRecord), s.mem.size = 65536 → s.Running → step s = .next t → t.status = .halted r →
    r.code ≠ .outOfBoundsMemoryAccess

/-! ### Fetch and the step -/

/-- R80: fetch answers the word at ip and leaves ip one higher; k fetches read k consecutive words. -/
def Obligations.FetchIsPostIncrement : Prop :=
  (∀ s : State, s.mem.size ≤ (s.readReg .ip).toNat →
    s.fetch = .error ⟨.outOfBoundsMemoryAccess, s.readReg .ip⟩) ∧
  (∀ s : State, (s.readReg .ip).toNat < s.mem.size →
    ∃ t, s.fetch = .ok (s.wordAt (s.readReg .ip), t) ∧ t.readReg .ip = s.readReg .ip + 1 ∧
      KeepsOthers s t [] ∧ KeepsMemory s t []) ∧
  ∀ (k : Nat) (s : State), (s.readReg .ip).toNat + k ≤ s.mem.size →
    ∃ t, fetchTimes k s = .ok ((List.range k).map fun j => s.wordAt (s.readReg .ip + BitVec.ofNat 16 j), t) ∧
      t.readReg .ip = s.readReg .ip + BitVec.ofNat 16 k ∧ KeepsOthers s t [] ∧ KeepsMemory s t []

/-- R85, decision D15: when an instruction's action begins, ip stands just past its last operand word and nothing
else has changed; the words fetched are those that decode to the instruction. -/
def Obligations.ActionBeginsPastOperands : Prop :=
  ∀ (s t : State) (i : Instr), s.fetchInstr = .ok (.instr i, t) →
    t.readReg .ip = s.readReg .ip + BitVec.ofNat 16 i.length ∧ KeepsOthers s t [] ∧ KeepsMemory s t [] ∧
    ∃ ws, ws.length = i.length ∧ s.HoldsWords (s.readReg .ip) ws ∧ decode s.config.opcodes ws = .instr i []

/-- When the words at ip decode to an instruction, the step of a RUNNING core is that instruction's meaning; the
step adds nothing around it. -/
def Obligations.StepRunsDecodedInstruction : Prop :=
  ∀ (s : State) (i : Instr) (ws : List Word), s.Running → s.HoldsWords (s.readReg .ip) ws →
    decode s.config.opcodes ws = .instr i [] → step s = exec i s

/-- R42 at the opcode fetch, decision D7: a RUNNING core whose ip is no address of the memory halts. That the fault
is a next state is log entry 5. -/
def Obligations.OpcodeFetchOutOfBoundsHalts : Prop :=
  ∀ s : State, s.Running → s.mem.size ≤ (s.readReg .ip).toNat →
    step s = .next (s.haltedWith .outOfBoundsMemoryAccess (s.readReg .ip))

/-- R164, decision D5: a word that is no opcode halts the core under `fault`, and under `skip` is consumed and
does nothing else. The form of the halt is decision D7's (log entry 5). -/
def Obligations.UnknownOpcodeHaltsOrIsSkipped : Prop :=
  ∀ s : State, s.Running → (s.readReg .ip).toNat < s.mem.size →
    (∀ k : Op, s.config.opcodes.word k ≠ s.wordAt (s.readReg .ip)) →
    (s.config.unknownOpcode = .fault →
      step s = .next (s.haltedWith .unknownOpcode (s.wordAt (s.readReg .ip)))) ∧
    (s.config.unknownOpcode = .skip →
      ∃ t, step s = .next t ∧ t.readReg .ip = s.readReg .ip + 1 ∧ KeepsOthers s t [] ∧ KeepsMemory s t [])

/-- R83 and R90, decision D7: a step of a RUNNING core always answers a next state, and the host's reply is Ok or
the record of the fault exactly as the new status says (C5; log entry 5). -/
def Obligations.RunningStepAnswers : Prop :=
  ∀ s : State, s.Running → ∃ t, step s = .next t ∧
    ((t.Running ∧ hostCall .step s = (t, .ok)) ∨
      ∃ r, t.status = .halted r ∧ r.ip = s.readReg .ip ∧ hostCall .step s = (t, .fault r))

/-- R88 and R170, decision D7: a step that raises a fault leaves every register and every word as they were, and
changes the latch alone. That the fault is a next state is log entry 5. -/
def Obligations.FaultsArePrecise : Prop :=
  ∀ (s t : State) (r : FaultRecord), s.Running → step s = .next t → t.status = .halted r →
    t = s.haltedWith r.code r.info ∧ r.ip = s.readReg .ip

/-- R171, decision D7: however often the host calls step on a HALTED core, the state stays the same and the reply
is the same record (log entry 5). -/
def Obligations.HaltedForGood : Prop :=
  ∀ (n : Nat) (s : State) (r : FaultRecord), s.status = .halted r →
    afterSteps n s = s ∧ step s = .fault (.halted r) ∧ hostCall .step (afterSteps n s) = (s, .fault r)

/-- R163 to R167, decisions D6 and D12: which faults an instruction's own action can raise. That such a
fault is a next state is decision D7's form (log entry 5). -/
def Obligations.FaultCodesByInstruction : Prop :=
  ∀ (i : Instr) (s t : State) (r : FaultRecord), s.Running → exec i s = .next t → t.status = .halted r →
    r.code ∈ actionFaults i

/-! ### Invariants -/

/-- The model's invariant (Safety.lean, log entries 4 and 12), kept by every step: canonical memory, an injective
opcode map, a latch that tells the truth. -/
def Obligations.StepKeepsWellFormed : Prop :=
  ∀ s t : State, s.wf = true → step s = .next t → t.wf = true

/-- The invariant holds after reset (N there is log entry 1). -/
def Obligations.ResetIsWellFormed : Prop := State.reset.wf = true

/-- R190 to R192, decisions D1 and D22: whatever the host boots is well formed, RUNNING, of the size asked for, and
keeps the words last written. That every write is inside the memory is the model's choice to refuse any other (log
entry 13), and that the opcode map is injective its choice to refuse any other (log entry 12). -/
def Obligations.BootIsWellFormed : Prop :=
  ∀ (c : Config) (size : Nat) (writes : List (Word × Word)) (s : State), boot c size writes = some s →
    s.wf = true ∧ s.Running ∧ s.config = c ∧ s.mem.size = size ∧ 1 ≤ size ∧ size ≤ 65536 ∧
    (∀ a v, (a, v) ∈ writes → a.toNat < size) ∧
    (∀ a, (∀ v, (a, v) ∉ writes) → s.wordAt a = 0) ∧
    ∀ (before after : List (Word × Word)) (a v : Word), writes = before ++ (a, v) :: after →
      (∀ u, (a, u) ∉ after) → s.wordAt a = v

/-- R32, and R33, which the spec marks as derived: no step resizes the memory or changes a construction parameter. -/
def Obligations.StepKeepsParameters : Prop :=
  ∀ s t : State, step s = .next t → t.config = s.config ∧ t.mem.last = s.mem.last

/-! ### Frames over all instructions -/

/-- R22, which the spec marks as derived, with R24, R26 and R27: an instruction changes no register but ip, its
named destination, and the register its own rule names; fp among them changes only when it is named (decision D21).
-/
def Obligations.OnlyWrittenRegistersChange : Prop :=
  ∀ (i : Instr) (s t : State) (q : Reg), exec i s = .next t → i.writes q = false → t.readReg q = s.readReg q

/-- R25: no instruction reads or writes r1 to r8 (indices 2 to 9) implicitly: setting one of them that the
instruction does not name, before it or after it, is the same. -/
def Obligations.GeneralRegistersOnlyWhenNamed : Prop :=
  ∀ (i : Instr) (s : State) (q : Reg) (v : Word),
    2 ≤ q.index.toNat → q.index.toNat ≤ 9 → i.names q = false →
    exec i (s.writeReg q v) = onNext (fun t => t.writeReg q v) (exec i s)

/-- R86, which the spec marks as derived: an instruction that completes leaves ip just past its words, unless it is
a taken jump or writes ip. -/
def Obligations.SequentialFlow : Prop :=
  ∀ (i : Instr) (s t : State), exec i s = .next t → t.Running → i.destination ≠ some .ip →
    (∀ lit target, i = .jumpNotEq lit target → lit = s.readReg .acc) →
    t.readReg .ip = s.readReg .ip + BitVec.ofNat 16 i.length

/-! ### The instructions

Each of these states its rule whole: how the operand words are fetched and where such a fetch halts the core, and
then, for every operand and state, what the action does. The form of a halt is R170's (decision D7; log entry 5).
The premise `s.mem.wf` (StepKeepsWellFormed) is needed only to read a stored word back. -/

/-- R100, MOV_LIT_REG. The form of a halt is decision D7's (log entry 5). -/
def Obligations.MovLitRegRule : Prop :=
  FetchesTwoOperands .movLitReg (fun lit rd => .movLitReg lit (Reg.ofWord rd)) ∧
  ∀ (lit : Word) (rd : Reg) (s : State), ∃ t, exec (.movLitReg lit rd) s = .next t ∧
    t.readReg rd = lit ∧ (rd ≠ .ip → t.readReg .ip = s.readReg .ip + 3) ∧
    KeepsOthers s t [rd] ∧ KeepsMemory s t []

/-- R101, MOV_REG_REG. The form of a halt is decision D7's (log entry 5). -/
def Obligations.MovRegRegRule : Prop :=
  FetchesTwoOperands .movRegReg (fun rs rd => .movRegReg (Reg.ofWord rs) (Reg.ofWord rd)) ∧
  ∀ (rs rd : Reg) (s : State), ∃ t, exec (.movRegReg rs rd) s = .next t ∧
    t.readReg rd = s.operand 3 rs ∧ (rd ≠ .ip → t.readReg .ip = s.readReg .ip + 3) ∧
    KeepsOthers s t [rd] ∧ KeepsMemory s t []

/-- R102, MOV_REG_MEM. The form of a halt is decision D7's (log entry 5). -/
def Obligations.MovRegMemRule : Prop :=
  FetchesTwoOperands .movRegMem (fun rs a => .movRegMem (Reg.ofWord rs) a) ∧
  ∀ (rs : Reg) (a : Word) (s : State),
    (s.mem.size ≤ a.toNat → exec (.movRegMem rs a) s = .next (s.haltedWith .outOfBoundsMemoryAccess a)) ∧
    (a.toNat < s.mem.size → ∃ t, exec (.movRegMem rs a) s = .next t ∧
      (s.mem.wf = true → t.wordAt a = s.operand 3 rs) ∧ t.readReg .ip = s.readReg .ip + 3 ∧
      KeepsOthers s t [] ∧ KeepsMemory s t [a])

/-- R103, MOV_MEM_REG. The form of a halt is decision D7's (log entry 5). -/
def Obligations.MovMemRegRule : Prop :=
  FetchesTwoOperands .movMemReg (fun a rd => .movMemReg a (Reg.ofWord rd)) ∧
  ∀ (a : Word) (rd : Reg) (s : State),
    (s.mem.size ≤ a.toNat → exec (.movMemReg a rd) s = .next (s.haltedWith .outOfBoundsMemoryAccess a)) ∧
    (a.toNat < s.mem.size → ∃ t, exec (.movMemReg a rd) s = .next t ∧
      t.readReg rd = s.wordAt a ∧ (rd ≠ .ip → t.readReg .ip = s.readReg .ip + 3) ∧
      KeepsOthers s t [rd] ∧ KeepsMemory s t [])

/-- R120, ADD_REG_REG. That a raw index of 12 or more raises is the spec's choice (decision D6), and so is the
unscaled index (decision D16). The form of a halt is decision D7's (log entry 5). -/
def Obligations.AddRegRegRule : Prop :=
  FetchesTwoOperands .addRegReg (fun i1 i2 => .addRegReg i1 i2) ∧
  ∀ (i1 i2 : Word) (s : State),
    (12 ≤ i1.toNat → exec (.addRegReg i1 i2) s = .next (s.haltedWith .invalidRegisterIndex i1)) ∧
    (i1.toNat < 12 → 12 ≤ i2.toNat →
      exec (.addRegReg i1 i2) s = .next (s.haltedWith .invalidRegisterIndex i2)) ∧
    ∀ ra rb : Reg, ra.index = i1 → rb.index = i2 → ∃ t, exec (.addRegReg i1 i2) s = .next t ∧
      (t.readReg .acc).toNat = ((s.operand 3 ra).toNat + (s.operand 3 rb).toNat) % 65536 ∧
      t.readReg .ip = s.readReg .ip + 3 ∧ KeepsOthers s t [.acc] ∧ KeepsMemory s t []

/-- R130, JUMP_NOT_EQ: the jump itself never faults; a taken target >= N faults at the next step's opcode fetch. The
form of a halt is decision D7's (log entry 5). -/
def Obligations.JumpNotEqRule : Prop :=
  FetchesTwoOperands .jumpNotEq (fun lit target => .jumpNotEq lit target) ∧
  ∀ (lit target : Word) (s : State), ∃ t, exec (.jumpNotEq lit target) s = .next t ∧
    t.readReg .ip = (if lit = s.readReg .acc then s.readReg .ip + 3 else target) ∧
    KeepsOthers s t [] ∧ KeepsMemory s t [] ∧
    (lit ≠ s.readReg .acc → s.Running → s.mem.size ≤ target.toNat →
      step t = .next (t.haltedWith .outOfBoundsMemoryAccess target))

/-- R142, PUSH_LIT. Which sp overflows is the spec's choice (decision D12), and the form of a halt is decision D7's
(log entry 5). -/
def Obligations.PushLitRule : Prop :=
  FetchesOneOperand .pushLit (fun lit => .pushLit lit) ∧
  ∀ (lit : Word) (s : State),
    if s.config.stackCheck = .checked ∧ s.readReg .sp = 0 then
      exec (.pushLit lit) s = .next (s.haltedWith .stackOverflow 0)
    else if s.mem.size ≤ (s.readReg .sp).toNat then
      exec (.pushLit lit) s = .next (s.haltedWith .outOfBoundsMemoryAccess (s.readReg .sp))
    else ∃ t, exec (.pushLit lit) s = .next t ∧
      (s.mem.wf = true → t.wordAt (s.readReg .sp) = lit) ∧ t.readReg .sp = s.readReg .sp - 1 ∧
      t.readReg .ip = s.readReg .ip + 2 ∧ KeepsOthers s t [.sp] ∧ KeepsMemory s t [s.readReg .sp]

/-- R143, PUSH_REG, with the stack faults of R140. Which sp overflows is the spec's choice (decision D12), and the
form of a halt is decision D7's (log entry 5). -/
def Obligations.PushRegRule : Prop :=
  FetchesOneOperand .pushReg (fun rs => .pushReg (Reg.ofWord rs)) ∧
  ∀ (rs : Reg) (s : State),
    if s.config.stackCheck = .checked ∧ s.readReg .sp = 0 then
      exec (.pushReg rs) s = .next (s.haltedWith .stackOverflow 0)
    else if s.mem.size ≤ (s.readReg .sp).toNat then
      exec (.pushReg rs) s = .next (s.haltedWith .outOfBoundsMemoryAccess (s.readReg .sp))
    else ∃ t, exec (.pushReg rs) s = .next t ∧
      (s.mem.wf = true → t.wordAt (s.readReg .sp) = s.operand 2 rs) ∧ t.readReg .sp = s.readReg .sp - 1 ∧
      t.readReg .ip = s.readReg .ip + 2 ∧ KeepsOthers s t [.sp] ∧ KeepsMemory s t [s.readReg .sp]

/-- R144, POP, with the stack faults of R141: with sp as the destination the popped word overwrites the increment, and
the popped slot is not cleared. Which sp underflows is the spec's choice (decision D12), and the form of a halt is
decision D7's (log entry 5). -/
def Obligations.PopRule : Prop :=
  FetchesOneOperand .pop (fun rd => .pop (Reg.ofWord rd)) ∧
  ∀ (rd : Reg) (s : State),
    if s.config.stackCheck = .checked ∧ s.mem.size ≤ (s.readReg .sp).toNat + 1 then
      exec (.pop rd) s = .next (s.haltedWith .stackUnderflow (s.readReg .sp))
    else if s.mem.size ≤ (s.readReg .sp + 1).toNat then
      exec (.pop rd) s = .next (s.haltedWith .outOfBoundsMemoryAccess (s.readReg .sp + 1))
    else ∃ t, exec (.pop rd) s = .next t ∧
      t.readReg rd = s.wordAt (s.readReg .sp + 1) ∧
      (rd ≠ .sp → t.readReg .sp = s.readReg .sp + 1) ∧ (rd ≠ .ip → t.readReg .ip = s.readReg .ip + 2) ∧
      KeepsOthers s t [.sp, rd] ∧ KeepsMemory s t []

/-- R121, which the spec marks as derived: the sum does not depend on the order of the raw indices. -/
def Obligations.AddCommutes : Prop :=
  ∀ (i1 i2 : Word) (s : State), (Instr.addRegReg i1 i2).wellFormed = true →
    exec (.addRegReg i1 i2) s = exec (.addRegReg i2 i1) s

/-- R146, the LIFO law, which the spec marks as derived, for the push and pop primitives in both `P_STACK_CHECK`
modes. -/
def Obligations.PushPushPopPop : Prop :=
  ∀ (s : State) (v1 v2 : Word) (a b : Reg), s.mem.wf = true →
    2 ≤ (s.readReg .sp).toNat → (s.readReg .sp).toNat < s.mem.size → a ≠ b → a ≠ .sp → b ≠ .sp →
    ∃ s1 s2 s3 s4, s.push v1 = .ok s1 ∧ s1.push v2 = .ok s2 ∧ s2.pop a = .ok s3 ∧ s3.pop b = .ok s4 ∧
      s4.readReg a = v2 ∧ s4.readReg b = v1 ∧ s4.readReg .sp = s.readReg .sp ∧
      s4.wordAt (s.readReg .sp) = v1 ∧ s4.wordAt (s.readReg .sp - 1) = v2 ∧
      KeepsMemory s s4 [s.readReg .sp, s.readReg .sp - 1]

/-- R73, which the spec marks as derived: the call idiom (push a return address, then load ip) and, from any later
state with the same sp and the pushed word still in place, the return idiom (pop into ip). -/
def Obligations.CallThenReturn : Prop :=
  ∀ (s : State) (ret target : Word), s.mem.wf = true →
    1 ≤ (s.readReg .sp).toNat → (s.readReg .sp).toNat < s.mem.size →
    ∃ s1 s2, exec (.pushLit ret) s = .next s1 ∧ exec (.movLitReg target .ip) s1 = .next s2 ∧
      s2.readReg .ip = target ∧
      ∀ u : State, u.config = s2.config → u.mem.size = s2.mem.size → u.readReg .sp = s2.readReg .sp →
        u.wordAt (s.readReg .sp) = s2.wordAt (s.readReg .sp) →
        ∃ v, exec (.pop .ip) u = .next v ∧ v.readReg .ip = ret ∧ v.readReg .sp = s.readReg .sp

/-! ### Construction and the host -/

/-- R34 and R190, decisions D7 and D22: what construction leaves, for every memory and every parameter. -/
def Obligations.ConstructionValues : Prop :=
  ∀ (c : Config) (m : Memory),
    (∀ r : Reg, (newCPU c m).readReg r = if r = .sp ∨ r = .fp then BitVec.ofNat 16 (m.size - 1) else 0) ∧
    (newCPU c m).status = .running ∧ (newCPU c m).mem = m ∧ (newCPU c m).config = c

/-- R191, decision D1: createMemory makes exactly `size` words, all 0, for the sizes 1 to 65536, and nothing for
any other. -/
def Obligations.CreatedMemoryIsZeroFilled : Prop :=
  ∀ size : Nat,
    (1 ≤ size → size ≤ 65536 →
      ∃ m, createMemory size = some m ∧ m.size = size ∧ m.wf = true ∧ ∀ a, m.read a = 0) ∧
    ((size = 0 ∨ 65536 < size) → createMemory size = none)

/-- R196 and R168, decision D19: the twelve names answer their registers, any other name an error; the state
stays. -/
def Obligations.GetRegisterByName : Prop :=
  ∀ s : State,
    (∀ r : Reg, hostCall (.getRegister (regName r)) s = (s, .value (s.readReg r))) ∧
    ∀ name : String, (∀ r : Reg, regName r ≠ name) →
      hostCall (.getRegister name) s = (s, .error .unknownRegister)

/-- R197, decision D17: the queries change no state, and viewMemoryAt reports an address >= N. -/
def Obligations.QueriesChangeNothing : Prop :=
  ∀ (s : State) (c : HostCall), c ≠ .step → (hostCall c s).1 = s ∧
    ∀ a : Word, s.mem.size ≤ a.toNat → hostCall (.viewMemoryAt a) s = (s, .error (.outOfBoundsMemoryAccess a))

/-- R199, decision D18: a run takes steps only while it goes on; a HALTED state is never a normal end, and with
`P_END_IP = none` there is no normal end. That the state a run starts from counts as a boundary is the model's choice
(log entry 15). -/
def Obligations.RunStopsAtItsEnd : Prop :=
  (∀ (fuel : Nat) (s : State), ∃ k, k ≤ fuel ∧ run fuel s = afterSteps k s ∧
    (∀ j, j < k → (afterSteps j s).runEnd = .goesOn) ∧ (k < fuel → (run fuel s).runEnd ≠ .goesOn)) ∧
  ∀ s : State, s.runEnd = .endsNormally ↔ s.Running ∧ s.config.endIp = some (s.readReg .ip)

/-! ### The host's session -/

/-- R195, decision D17: from createMemory until the first step the host may write any word of M, before and after
construction, and such a write changes that word alone; after the first step it has no such move. -/
def Obligations.HostWritesUntilFirstStep : Prop :=
  ∀ a v : Word,
    (∀ m : Memory, m.wf = true → a.toNat < m.size →
      ∃ m', hostMove (.write a v) (.created m) = some (.created m', .done) ∧
        m'.read a = v ∧ m'.size = m.size ∧ ∀ b, b ≠ a → m'.read b = m.read b) ∧
    (∀ s : State, s.mem.wf = true → a.toNat < s.mem.size →
      ∃ t, hostMove (.write a v) (.constructed s) = some (.constructed t, .done) ∧
        t.wordAt a = v ∧ KeepsMemory s t [a] ∧ t.regs = s.regs ∧ t.status = s.status ∧ t.config = s.config) ∧
    ∀ s : State, hostMove (.write a v) (.stepped s) = none

/-- R195, decision D17: the first step ends the host's writes for good. No later move brings them back, not even a
new construction on the used memory, which is the model's choice (log entry 14). -/
def Obligations.NoHostWriteAfterFirstStep : Prop :=
  (∀ s : State, hostMove (.call .step) (.constructed s) =
    some (.stepped (hostCall .step s).1, (hostCall .step s).2)) ∧
  ∀ (moves : List HostMove) (s : State) (h : Session), hostMoves moves (.stepped s) = some h →
    (∃ t, h = .stepped t) ∧ ∀ a v, HostMove.write a v ∉ moves

/-- R190, R192 and R195, decisions D17 and D22: a host that writes, constructs, and writes on before its first step
gets the machine that booting with all those writes gives. Where either is refused, log entries 12 and 13 refuse it. -/
def Obligations.WritesBeforeOrAfterConstruction : Prop :=
  ∀ (c : Config) (size : Nat) (m : Memory) (before after : List (Word × Word)),
    c.opcodes.Injective → createMemory size = some m →
    hostMoves (before.map (fun w => .write w.1 w.2) ++ .newCPU c :: after.map (fun w => .write w.1 w.2))
        (.created m) =
      (boot c size (before ++ after)).map Session.constructed

/-- Every move of the host keeps its session well formed and its memory's size (R32; Safety.lean, log entries 4 and
12 to 14): until the first step the CPU differs from a new one by host writes alone. -/
def Obligations.HostMovesKeepWellFormed : Prop :=
  ∀ (mv : HostMove) (h h' : Session) (r : HostReply), h.wf = true → hostMove mv h = some (h', r) →
    h'.wf = true ∧ h'.memory.size = h.memory.size
end

