-- ==== Sys2Proof/Laws/Decode.lean ====
section
/-! SUPPORT. Sys2Proof/Laws/Decode.lean: register numbers and the opcode map. -/

namespace Sys2Proof

/-- A register's own index names it. -/
@[simp] theorem Reg.ofWord_index (r : Reg) : Reg.ofWord r.index = r := by
  cases r <;> rfl

/-- Every register index is below 12. -/
theorem Reg.index_lt (r : Reg) : r.index.toNat < 12 := by
  cases r <;> decide

/-- The word of a mnemonic is one of the map's nine words. -/
theorem OpcodeMap.word_mem (m : OpcodeMap) (k : Op) : m.word k ∈ m.words := by
  cases k <;> simp [OpcodeMap.word, OpcodeMap.words]

/-- A word that selects a mnemonic is that mnemonic's word. -/
theorem OpcodeMap.word_of_find? {m : OpcodeMap} {w : Word} {k : Op} (h : m.find? w = some k) : m.word k = w := by
  unfold OpcodeMap.find? at h
  repeat' split at h
  all_goals cases h
  all_goals (symm; assumption)

/-- A word that selects nothing is no mnemonic's word. -/
theorem OpcodeMap.word_ne_of_find?_none {m : OpcodeMap} {w : Word} (h : m.find? w = none) (k : Op) : m.word k ≠ w := by
  unfold OpcodeMap.find? at h
  repeat' split at h
  all_goals cases h
  cases k <;> (intro e; subst e; simp_all [OpcodeMap.word])

/-- Under an injective map two mnemonics have two words. -/
theorem OpcodeMap.word_inj {m : OpcodeMap} (hm : m.Injective) {j k : Op} (h : m.word j = m.word k) : j = k := by
  unfold OpcodeMap.Injective OpcodeMap.words at hm
  revert hm h
  cases j <;> cases k <;> simp +contextual [OpcodeMap.word, eq_comm]

end Sys2Proof
end

