-- ==== Sys2Proof/Laws/State.lean ====
section
/-! SUPPORT. Sys2Proof/Laws/State.lean: one lemma per field per update of the state, each true by unfolding. -/

namespace Sys2Proof.Machine

@[simp] theorem State.writeReg_mem (s : State) (r : Reg) (v : Word) : (s.writeReg r v).mem = s.mem := rfl
@[simp] theorem State.writeReg_status (s : State) (r : Reg) (v : Word) : (s.writeReg r v).status = s.status := rfl
@[simp] theorem State.writeReg_config (s : State) (r : Reg) (v : Word) : (s.writeReg r v).config = s.config := rfl

@[simp] theorem State.advance_mem (s : State) (n : Nat) : (s.advance n).mem = s.mem := rfl
@[simp] theorem State.advance_status (s : State) (n : Nat) : (s.advance n).status = s.status := rfl
@[simp] theorem State.advance_config (s : State) (n : Nat) : (s.advance n).config = s.config := rfl

@[simp] theorem State.takeFault_regs (s : State) (e : Raise) : (s.takeFault e).regs = s.regs := rfl
@[simp] theorem State.takeFault_mem (s : State) (e : Raise) : (s.takeFault e).mem = s.mem := rfl
@[simp] theorem State.takeFault_config (s : State) (e : Raise) : (s.takeFault e).config = s.config := rfl
@[simp] theorem State.takeFault_status (s : State) (e : Raise) :
    (s.takeFault e).status = .halted ⟨e.code, e.info, s.readReg .ip⟩ := rfl

@[simp] theorem State.haltedWith_regs (s : State) (c : FaultCode) (w : Word) : (s.haltedWith c w).regs = s.regs := rfl
@[simp] theorem State.haltedWith_mem (s : State) (c : FaultCode) (w : Word) : (s.haltedWith c w).mem = s.mem := rfl
@[simp] theorem State.haltedWith_config (s : State) (c : FaultCode) (w : Word) :
    (s.haltedWith c w).config = s.config := rfl
@[simp] theorem State.haltedWith_status (s : State) (c : FaultCode) (w : Word) :
    (s.haltedWith c w).status = .halted ⟨c, w, s.readReg .ip⟩ := rfl

@[simp] theorem State.setMem_regs (s : State) (m : Memory) : ({ s with mem := m } : State).regs = s.regs := rfl
@[simp] theorem State.setMem_mem (s : State) (m : Memory) : ({ s with mem := m } : State).mem = m := rfl
@[simp] theorem State.setMem_status (s : State) (m : Memory) : ({ s with mem := m } : State).status = s.status := rfl
@[simp] theorem State.setMem_config (s : State) (m : Memory) : ({ s with mem := m } : State).config = s.config := rfl
@[simp] theorem State.setMem_readReg (s : State) (m : Memory) (q : Reg) :
    ({ s with mem := m } : State).readReg q = s.readReg q := rfl
@[simp] theorem State.setMem_wordAt (s : State) (m : Memory) (a : Word) :
    ({ s with mem := m } : State).wordAt a = m.read a := rfl

@[simp] theorem State.takeFault_readReg (s : State) (e : Raise) (q : Reg) :
    (s.takeFault e).readReg q = s.readReg q := rfl
@[simp] theorem State.takeFault_wordAt (s : State) (e : Raise) (a : Word) :
    (s.takeFault e).wordAt a = s.wordAt a := rfl
@[simp] theorem State.haltedWith_readReg (s : State) (c : FaultCode) (w : Word) (q : Reg) :
    (s.haltedWith c w).readReg q = s.readReg q := rfl
@[simp] theorem State.writeReg_wordAt (s : State) (r : Reg) (v a : Word) :
    (s.writeReg r v).wordAt a = s.wordAt a := rfl
@[simp] theorem State.advance_wordAt (s : State) (n : Nat) (a : Word) : (s.advance n).wordAt a = s.wordAt a := rfl

@[simp] theorem Memory.write_last (m : Memory) (a v : Word) : (m.write a v).last = m.last := rfl
@[simp] theorem Memory.write_size (m : Memory) (a v : Word) : (m.write a v).size = m.size := rfl
@[simp] theorem Memory.write_has (m : Memory) (a v b : Word) : (m.write a v).has b = m.has b := rfl

@[simp] theorem newCPU_mem (c : Config) (m : Memory) : (newCPU c m).mem = m := rfl
@[simp] theorem newCPU_status (c : Config) (m : Memory) : (newCPU c m).status = .running := rfl
@[simp] theorem newCPU_config (c : Config) (m : Memory) : (newCPU c m).config = c := rfl

end Sys2Proof.Machine
end

