-- ==== Sys2Proof/Laws/Memory.lean ====
section
/-! SUPPORT. Sys2Proof/Laws/Memory.lean: the canonical form is kept by every memory operation, and reads after
writes. -/

namespace Sys2Proof.Machine

/-- A canonical list is canonical from any lower address too. -/
theorem cellsWf_mono {last lo lo' : Nat} {cells : List Cell} (h : lo' ≤ lo) (hw : cellsWf last lo cells = true) :
    cellsWf last lo' cells = true := by
  cases cells with
  | nil => rfl
  | cons c rest =>
    simp only [cellsWf, Bool.and_eq_true, decide_eq_true_eq] at hw ⊢
    exact ⟨⟨⟨by omega, hw.1.1.2⟩, hw.1.2⟩, hw.2⟩

theorem cellsWf_consCell {last lo a : Nat} {v : Word} {rest : List Cell} (hlo : lo ≤ a) (ha : a ≤ last)
    (hr : cellsWf last (a + 1) rest = true) : cellsWf last lo (consCell a v rest) = true := by
  unfold consCell
  split
  · exact cellsWf_mono (by omega) hr
  · next hv => simp [cellsWf, hlo, ha, hr, hv]

/-- A write keeps the canonical form. -/
theorem cellsWf_writeCells {last a : Nat} (v : Word) (ha : a ≤ last) :
    ∀ {cells : List Cell} {lo : Nat}, lo ≤ a → cellsWf last lo cells = true →
      cellsWf last lo (writeCells cells a v) = true := by
  intro cells
  induction cells with
  | nil => exact fun hlo _ => cellsWf_consCell hlo ha rfl
  | cons c rest ih =>
    obtain ⟨b, u⟩ := c
    intro lo hlo hw
    have hw' := hw
    simp only [cellsWf, Bool.and_eq_true, decide_eq_true_eq] at hw
    obtain ⟨⟨⟨hb, hbl⟩, hu⟩, hrest⟩ := hw
    unfold writeCells
    split
    · next hab =>
      refine cellsWf_consCell hlo ha ?_
      simp only [cellsWf, Bool.and_eq_true, decide_eq_true_eq]
      exact ⟨⟨⟨by omega, hbl⟩, hu⟩, hrest⟩
    · split
      · next hab => exact cellsWf_consCell hlo ha (hab ▸ hrest)
      · simp only [cellsWf, Bool.and_eq_true, decide_eq_true_eq]
        exact ⟨⟨⟨hb, hbl⟩, hu⟩, ih (by omega) hrest⟩

/-- Below its lowest address a canonical list reads as blank. -/
theorem readCells_below {last a : Nat} :
    ∀ {cells : List Cell} {lo : Nat}, a < lo → cellsWf last lo cells = true → readCells cells a = Memory.blank := by
  intro cells
  induction cells with
  | nil => exact fun _ _ => rfl
  | cons c rest ih =>
    obtain ⟨b, u⟩ := c
    intro lo hlo hw
    simp only [cellsWf, Bool.and_eq_true, decide_eq_true_eq] at hw
    unfold readCells
    rw [if_neg (by omega)]
    exact ih (by omega) hw.2

theorem readCells_consCell_other {a b : Nat} (v : Word) (rest : List Cell) (h : a ≠ b) :
    readCells (consCell a v rest) b = readCells rest b := by
  unfold consCell
  split
  · rfl
  · exact if_neg h

theorem readCells_consCell_same {last a : Nat} (v : Word) {rest : List Cell}
    (hr : cellsWf last (a + 1) rest = true) : readCells (consCell a v rest) a = v := by
  unfold consCell
  split
  · next hv => rw [hv, readCells_below (Nat.lt_succ_self a) hr]
  · exact if_pos rfl

/-- A write leaves every other address as it was, in any list. -/
theorem readCells_writeCells_other {a b : Nat} (v : Word) (h : a ≠ b) (cells : List Cell) :
    readCells (writeCells cells a v) b = readCells cells b := by
  induction cells with
  | nil => exact readCells_consCell_other v [] h
  | cons c rest ih =>
    obtain ⟨d, u⟩ := c
    unfold writeCells
    split
    · exact readCells_consCell_other v _ h
    · split
      · next hd =>
        rw [readCells_consCell_other v rest h]
        exact (if_neg (hd ▸ h)).symm
      · simp only [readCells, ih]

/-- A read after a write to the same address gives the value written. -/
theorem readCells_writeCells_same {last a : Nat} (v : Word) :
    ∀ {cells : List Cell} {lo : Nat}, cellsWf last lo cells = true → readCells (writeCells cells a v) a = v := by
  intro cells
  induction cells with
  | nil => exact fun _ => readCells_consCell_same (last := a) v rfl
  | cons c rest ih =>
    obtain ⟨b, u⟩ := c
    intro lo hw
    simp only [cellsWf, Bool.and_eq_true, decide_eq_true_eq] at hw
    unfold writeCells
    split
    · refine readCells_consCell_same (last := last) v ?_
      simp only [cellsWf, Bool.and_eq_true, decide_eq_true_eq]
      exact ⟨⟨⟨by omega, hw.1.1.2⟩, hw.1.2⟩, hw.2⟩
    · split
      · next hab => exact readCells_consCell_same v (hab ▸ hw.2)
      · next hba =>
        simp only [readCells, if_neg (Ne.symm hba)]
        exact ih hw.2

theorem Memory.has_iff (m : Memory) (a : Word) : m.has a = true ↔ a.toNat < m.size := by
  simp [Memory.has]

theorem Memory.has_eq_false (m : Memory) (a : Word) : m.has a = false ↔ m.size ≤ a.toNat := by
  simp [Memory.has]

/-- `Memory.write` at an address that exists keeps the canonical form. -/
theorem Memory.write_wf {m : Memory} {a : Word} (v : Word) (ha : m.has a = true) (hw : m.wf = true) :
    (m.write a v).wf = true :=
  cellsWf_writeCells v (Nat.lt_succ_iff.1 ((m.has_iff a).1 ha)) (Nat.zero_le _) hw

theorem Memory.read_write_same {m : Memory} (a v : Word) (hw : m.wf = true) : (m.write a v).read a = v :=
  readCells_writeCells_same v hw

theorem Memory.read_write_other (m : Memory) {a b : Word} (v : Word) (h : b ≠ a) :
    (m.write a v).read b = m.read b :=
  readCells_writeCells_other v (fun e => h (BitVec.eq_of_toNat_eq e.symm)) m.cells

/-- The memory of `State.reset` is in canonical form. -/
theorem Memory.ofReset_wf : Memory.ofReset.wf = true := rfl

/-- Placing words keeps the canonical form. -/
theorem State.placeWords_wf {s : State} (hw : s.mem.wf = true) (a : Word) (ws : List Word) :
    (s.placeWords a ws).mem.wf = true := by
  induction ws generalizing s a with
  | nil => exact hw
  | cons w rest ih =>
    unfold State.placeWords
    refine ih ?_ (a + 1)
    split
    · next h => exact Memory.write_wf w h hw
    · exact hw

/-- A host write before construction keeps the canonical form. -/
theorem hostWrite_wf {m m' : Memory} {a v : Word} (hw : m.wf = true) (h : hostWrite m a v = some m') :
    m'.wf = true := by
  unfold hostWrite at h
  split at h
  · next ha => cases h; exact Memory.write_wf v ha hw
  · cases h

end Sys2Proof.Machine
end

