-- ==== Sys2Proof/Laws/Host.lean ====
section
/-! SUPPORT. Sys2Proof/Laws/Host.lean: what each of the host's moves can do. -/

namespace Sys2Proof.Machine

theorem hostWrite_of_lt {m : Memory} {a : Word} (v : Word) (h : a.toNat < m.size) :
    hostWrite m a v = some (m.write a v) :=
  if_pos ((m.has_iff a).2 h)

/-- A host write that is had is a write of one word that exists. -/
theorem hostWrite_some {m m' : Memory} {a v : Word} (h : hostWrite m a v = some m') :
    a.toNat < m.size ∧ m' = m.write a v := by
  unfold hostWrite at h
  split at h
  · next ha => cases h; exact ⟨(m.has_iff a).1 ha, rfl⟩
  · cases h

/-- Every write a session can make. -/
theorem Session.write_cases {h h' : Session} {a v : Word} (e : h.write a v = some h') :
    (∃ m, h = .created m ∧ a.toNat < m.size ∧ h' = .created (m.write a v)) ∨
    ∃ s, h = .constructed s ∧ a.toNat < s.mem.size ∧ h' = .constructed { s with mem := s.mem.write a v } := by
  cases h with
  | created m =>
    unfold Session.write at e
    dsimp only at e
    split at e
    · cases e
    · next m' hm =>
      obtain ⟨ha, rfl⟩ := hostWrite_some hm
      cases e
      exact .inl ⟨m, rfl, ha, rfl⟩
  | constructed s =>
    unfold Session.write at e
    dsimp only at e
    split at e
    · cases e
    · next m' hm =>
      obtain ⟨ha, rfl⟩ := hostWrite_some hm
      cases e
      exact .inr ⟨s, rfl, ha, rfl⟩
  | stepped s => cases e

/-- Every construction a session can make: a new CPU on the memory as it is. -/
theorem Session.construct_cases {h h' : Session} {c : Config} (e : h.construct c = some h') :
    c.opcodes.Injective ∧
    (((∀ s, h ≠ .stepped s) ∧ h' = .constructed (newCPU c h.memory)) ∨
      ((∃ s, h = .stepped s) ∧ h' = .stepped (newCPU c h.memory))) := by
  unfold Session.construct at e
  split at e
  · next hc =>
    refine ⟨hc, ?_⟩
    cases h <;> cases e
    · exact .inl ⟨fun _ => Session.noConfusion, rfl⟩
    · exact .inl ⟨fun _ => Session.noConfusion, rfl⟩
    · exact .inr ⟨⟨_, rfl⟩, rfl⟩
  · cases e

/-- Every call a session can make: a `step`, which leaves it stepped, or a query on a CPU without a step, or any
call on a CPU with one. -/
theorem Session.call_cases {h h' : Session} {c : HostCall} {r : HostReply} (e : h.call c = some (h', r)) :
    ∃ s, r = (hostCall c s).2 ∧
      ((h = .constructed s ∧ c = .step ∧ h' = .stepped (hostCall c s).1) ∨
        (h = .constructed s ∧ c ≠ .step ∧ h' = .constructed (hostCall c s).1) ∨
        (h = .stepped s ∧ h' = .stepped (hostCall c s).1)) := by
  cases h with
  | created m => cases e
  | constructed s =>
    refine ⟨s, ?_⟩
    cases e
    by_cases hc : c = .step
    · exact ⟨rfl, .inl ⟨rfl, hc, if_pos hc⟩⟩
    · exact ⟨rfl, .inr (.inl ⟨rfl, hc, if_neg hc⟩)⟩
  | stepped s => cases e; exact ⟨s, rfl, .inr (.inr ⟨rfl, rfl⟩)⟩

/-- Construction on a canonical memory with an injective map is well formed. -/
theorem newCPU_wf {c : Config} {m : Memory} (hc : c.opcodes.Injective) (hm : m.wf = true) :
    (newCPU c m).wf = true := by
  simp only [State.wf, newCPU_mem, newCPU_config, hm, hc, decide_true, Bool.true_and]
  rfl

end Sys2Proof.Machine
end

