-- ==== Sys2Proof/Laws/Registers.lean ====
section
/-! SUPPORT. Sys2Proof/Laws/Registers.lean: reading back what was written to the register file. -/

namespace Sys2Proof.Machine

theorem RegFile.read_write (f : RegFile) (r q : Reg) (v : Word) :
    (f.write r v).read q = if q = r then v else f.read q := by
  cases r <;> cases q <;> rfl

theorem State.readReg_writeReg (s : State) (r q : Reg) (v : Word) :
    (s.writeReg r v).readReg q = if q = r then v else s.readReg q :=
  RegFile.read_write s.regs r q v

@[simp] theorem State.readReg_writeReg_same (s : State) (r : Reg) (v : Word) :
    (s.writeReg r v).readReg r = v := by
  rw [State.readReg_writeReg, if_pos rfl]

theorem State.readReg_writeReg_other (s : State) {r q : Reg} (v : Word) (h : q ≠ r) :
    (s.writeReg r v).readReg q = s.readReg q := by
  rw [State.readReg_writeReg, if_neg h]

/-- Writes of two registers commute. -/
theorem State.writeReg_comm (s : State) {r q : Reg} (v w : Word) (h : r ≠ q) :
    (s.writeReg r v).writeReg q w = (s.writeReg q w).writeReg r v := by
  revert h
  cases r <;> cases q <;> first | exact fun _ => rfl | exact fun h => absurd rfl h

/-- ip after `advance`. -/
@[simp] theorem State.advance_ip (s : State) (n : Nat) :
    (s.advance n).readReg .ip = s.readReg .ip + BitVec.ofNat 16 n :=
  State.readReg_writeReg_same s .ip _

/-- `advance` changes no register but ip. -/
theorem State.advance_readReg (s : State) (n : Nat) {q : Reg} (h : q ≠ .ip) :
    (s.advance n).readReg q = s.readReg q :=
  State.readReg_writeReg_other s _ h

/-- What an action reads of a register is its `operand` value. -/
theorem State.advance_operand (s : State) (n : Nat) (q : Reg) : (s.advance n).readReg q = s.operand n q := by
  unfold State.operand
  split
  · next h => rw [h, State.advance_ip]
  · next h => exact s.advance_readReg n h

/-- Advancing twice is advancing by the sum, modulo 65536. -/
theorem State.advance_advance (s : State) (m n : Nat) : (s.advance m).advance n = s.advance (m + n) := by
  simp only [State.advance, State.readReg_writeReg_same, BitVec.add_assoc, BitVec.ofNat_add]
  rfl

theorem State.advance_zero (s : State) : s.advance 0 = s := by
  simp [State.advance, State.writeReg, State.readReg, RegFile.read, RegFile.write]

end Sys2Proof.Machine
end

