-- ==== Sys2Proof/Laws/Ops.lean ====
section
/-! SUPPORT. Sys2Proof/Laws/Ops.lean: for each shared operation, one lemma that says once everything it can do. -/

namespace Sys2Proof.Machine

theorem State.memRead_cases (s : State) (a : Word) :
    (a.toNat < s.mem.size ∧ s.memRead a = .ok (s.wordAt a)) ∨
    (s.mem.size ≤ a.toNat ∧ s.memRead a = .error ⟨.outOfBoundsMemoryAccess, a⟩) := by
  unfold State.memRead
  split
  · next h => exact .inl ⟨(s.mem.has_iff a).1 h, rfl⟩
  · next h => exact .inr ⟨(s.mem.has_eq_false a).1 (by simpa using h), rfl⟩

theorem State.memRead_of_lt {s : State} {a : Word} (h : a.toNat < s.mem.size) : s.memRead a = .ok (s.wordAt a) := by
  obtain ⟨-, e⟩ | ⟨h', -⟩ := s.memRead_cases a
  · exact e
  · omega

theorem State.memRead_of_le {s : State} {a : Word} (h : s.mem.size ≤ a.toNat) :
    s.memRead a = .error ⟨.outOfBoundsMemoryAccess, a⟩ := by
  obtain ⟨h', -⟩ | ⟨-, e⟩ := s.memRead_cases a
  · omega
  · exact e

theorem State.memWrite_of_lt {s : State} {a : Word} (v : Word) (h : a.toNat < s.mem.size) :
    s.memWrite a v = .ok { s with mem := s.mem.write a v } :=
  if_pos ((s.mem.has_iff a).2 h)

theorem State.memWrite_of_le {s : State} {a : Word} (v : Word) (h : s.mem.size ≤ a.toNat) :
    s.memWrite a v = .error ⟨.outOfBoundsMemoryAccess, a⟩ :=
  if_neg (by rw [(s.mem.has_eq_false a).2 h]; exact Bool.false_ne_true)

theorem State.memWrite_cases (s : State) (a v : Word) :
    (a.toNat < s.mem.size ∧ s.memWrite a v = .ok { s with mem := s.mem.write a v }) ∨
    (s.mem.size ≤ a.toNat ∧ s.memWrite a v = .error ⟨.outOfBoundsMemoryAccess, a⟩) := by
  rcases Nat.lt_or_ge a.toNat s.mem.size with h | h
  · exact .inl ⟨h, State.memWrite_of_lt v h⟩
  · exact .inr ⟨h, State.memWrite_of_le v h⟩

theorem State.fetch_cases (s : State) :
    ((s.readReg .ip).toNat < s.mem.size ∧ s.fetch = .ok (s.wordAt (s.readReg .ip), s.advance 1)) ∨
    (s.mem.size ≤ (s.readReg .ip).toNat ∧ s.fetch = .error ⟨.outOfBoundsMemoryAccess, s.readReg .ip⟩) := by
  unfold State.fetch
  obtain ⟨h, e⟩ | ⟨h, e⟩ := s.memRead_cases (s.readReg .ip) <;> rw [e]
  · exact .inl ⟨h, rfl⟩
  · exact .inr ⟨h, rfl⟩

/-- The end of a step is always a next state: the action's, or the fault taken in the state before the step. -/
theorem State.finish_cases {s t : State} {act : Except Raise State} (h : s.finish act = .next t) :
    act = .ok t ∨ ∃ e, act = .error e ∧ t = s.takeFault e := by
  cases act with
  | ok u => cases h; exact .inl rfl
  | error e => cases h; exact .inr ⟨e, rfl, rfl⟩

@[simp] theorem State.finish_ok (s t : State) : s.finish (.ok t) = .next t := rfl
@[simp] theorem State.finish_error (s : State) (e : Raise) : s.finish (.error e) = .next (s.takeFault e) := rfl

theorem State.takeFault_eq_haltedWith (s : State) (c : FaultCode) (w : Word) :
    s.takeFault ⟨c, w⟩ = s.haltedWith c w := rfl

theorem State.unknownOpcode_cases (s : State) (op : Word) :
    (s.config.unknownOpcode = .fault ∧ s.unknownOpcode op = .next (s.haltedWith .unknownOpcode op)) ∨
    (s.config.unknownOpcode = .skip ∧ s.unknownOpcode op = .next (s.advance 1)) := by
  unfold State.unknownOpcode
  split
  · next h => exact .inl ⟨h, rfl⟩
  · next h => exact .inr ⟨h, rfl⟩

/-- Everything `push` can do. -/
theorem State.push_cases (s : State) (v : Word) :
    (s.config.stackCheck = .checked ∧ s.readReg .sp = 0 ∧ s.push v = .error ⟨.stackOverflow, 0⟩) ∨
    (¬ (s.config.stackCheck = .checked ∧ s.readReg .sp = 0) ∧ s.mem.size ≤ (s.readReg .sp).toNat ∧
      s.push v = .error ⟨.outOfBoundsMemoryAccess, s.readReg .sp⟩) ∨
    (¬ (s.config.stackCheck = .checked ∧ s.readReg .sp = 0) ∧ (s.readReg .sp).toNat < s.mem.size ∧
      s.push v = .ok ({ s with mem := s.mem.write (s.readReg .sp) v }.writeReg .sp (s.readReg .sp - 1))) := by
  unfold State.push
  dsimp only
  split
  · next h => exact .inl ⟨h.1, h.2, by rw [h.2]⟩
  · next h =>
    obtain ⟨hs, e⟩ | ⟨hs, e⟩ := s.memWrite_cases (s.readReg .sp) v <;> rw [e]
    · exact .inr (.inr ⟨h, hs, rfl⟩)
    · exact .inr (.inl ⟨h, hs, rfl⟩)

/-- Everything `pop` can do. -/
theorem State.pop_cases (s : State) (rd : Reg) :
    (s.config.stackCheck = .checked ∧ s.mem.size ≤ (s.readReg .sp).toNat + 1 ∧
      s.pop rd = .error ⟨.stackUnderflow, s.readReg .sp⟩) ∨
    (¬ (s.config.stackCheck = .checked ∧ s.mem.size ≤ (s.readReg .sp).toNat + 1) ∧
      s.mem.size ≤ (s.readReg .sp + 1).toNat ∧
      s.pop rd = .error ⟨.outOfBoundsMemoryAccess, s.readReg .sp + 1⟩) ∨
    (¬ (s.config.stackCheck = .checked ∧ s.mem.size ≤ (s.readReg .sp).toNat + 1) ∧
      (s.readReg .sp + 1).toNat < s.mem.size ∧
      s.pop rd = .ok ((s.writeReg .sp (s.readReg .sp + 1)).writeReg rd (s.wordAt (s.readReg .sp + 1)))) := by
  unfold State.pop
  dsimp only
  simp only [Nat.sub_le_iff_le_add]
  split
  · next h => exact .inl ⟨h.1, h.2, rfl⟩
  · next h =>
    obtain ⟨hs, e⟩ | ⟨hs, e⟩ := s.memRead_cases (s.readReg .sp + 1) <;> rw [e]
    · exact .inr (.inr ⟨h, hs, rfl⟩)
    · exact .inr (.inl ⟨h, hs, rfl⟩)

/-- Everything the check of a raw index can do. -/
theorem rawRegister_cases (w : Word) :
    (w.toNat < 12 ∧ rawRegister w = .ok (Reg.ofWord w)) ∨
    (12 ≤ w.toNat ∧ rawRegister w = .error ⟨.invalidRegisterIndex, w⟩) := by
  unfold rawRegister
  split
  · next h => exact .inl ⟨h, rfl⟩
  · next h => exact .inr ⟨Nat.le_of_not_lt h, rfl⟩

/-- Everything the fetch unit can do, the operand reads left to `fetchOperands`. -/
theorem State.fetchInstr_cases (s : State) :
    (s.mem.size ≤ (s.readReg .ip).toNat ∧ s.fetchInstr = .error ⟨.outOfBoundsMemoryAccess, s.readReg .ip⟩) ∨
    ((s.readReg .ip).toNat < s.mem.size ∧ s.config.opcodes.find? (s.wordAt (s.readReg .ip)) = none ∧
      s.fetchInstr = .ok (.unknown (s.wordAt (s.readReg .ip)), s.advance 1)) ∨
    ∃ k, (s.readReg .ip).toNat < s.mem.size ∧ s.config.opcodes.find? (s.wordAt (s.readReg .ip)) = some k ∧
      ((∃ e, (s.advance 1).fetchOperands k.reader = .error e ∧ s.fetchInstr = .error e) ∨
        ∃ i t, (s.advance 1).fetchOperands k.reader = .ok (i, t) ∧ s.fetchInstr = .ok (.instr i, t)) := by
  unfold State.fetchInstr
  obtain ⟨h, e⟩ | ⟨h, e⟩ := s.fetch_cases <;> rw [e]
  · refine .inr ?_
    dsimp only
    split
    · next hf => exact .inl ⟨h, hf, rfl⟩
    · next k hf =>
      refine .inr ⟨k, h, hf, ?_⟩
      split
      · next e' he => exact .inl ⟨e', he, rfl⟩
      · next i t ht => exact .inr ⟨i, t, ht, rfl⟩
  · exact .inl ⟨h, rfl⟩

/-- Operand reads answer an instruction, or raise OutOfBoundsMemoryAccess at an address that does not exist. -/
theorem State.fetchOperands_error {r : Reader} {s : State} {e : Raise} (h : s.fetchOperands r = .error e) :
    e.code = .outOfBoundsMemoryAccess ∧ s.mem.size ≤ e.info.toNat := by
  induction r generalizing s with
  | done i => cases h
  | need next ih =>
    unfold State.fetchOperands at h
    obtain ⟨-, e'⟩ | ⟨hs, e'⟩ := s.fetch_cases <;> rw [e'] at h <;> dsimp only at h
    · exact ih _ (s := s.advance 1) h
    · cases h
      exact ⟨rfl, hs⟩

/-- Operand reads move ip and change nothing else. -/
theorem State.fetchOperands_ok {r : Reader} {s t : State} {i : Instr} (h : s.fetchOperands r = .ok (i, t)) :
    ∃ n, t = s.advance n := by
  induction r generalizing s with
  | done j => cases h; exact ⟨0, (State.advance_zero _).symm⟩
  | need next ih =>
    unfold State.fetchOperands at h
    obtain ⟨-, e⟩ | ⟨-, e⟩ := s.fetch_cases <;> rw [e] at h <;> dsimp only at h
    · obtain ⟨n, hn⟩ := ih _ h
      exact ⟨1 + n, by rw [hn, State.advance_advance]⟩
    · cases h

/-- A RUNNING core's step, by what its fetch unit finds. -/
theorem step_cases {s : State} (hr : s.Running) :
    (∃ e, s.fetchInstr = .error e ∧ step s = .next (s.takeFault e)) ∨
    (∃ op u, s.fetchInstr = .ok (.unknown op, u) ∧ step s = s.unknownOpcode op) ∨
    ∃ i u, s.fetchInstr = .ok (.instr i, u) ∧ step s = exec i s := by
  unfold step
  rw [hr]
  dsimp only
  split
  · next e he => exact .inl ⟨e, he, rfl⟩
  · next op u he => exact .inr (.inl ⟨op, u, he, rfl⟩)
  · next i u he => exact .inr (.inr ⟨i, u, he, rfl⟩)

/-- A HALTED core's step. -/
theorem step_halted {s : State} {r : FaultRecord} (h : s.status = .halted r) : step s = .fault (.halted r) := by
  unfold step
  rw [h]

/-- What a fetch fault says: the code is OutOfBoundsMemoryAccess, and the address does not exist. -/
theorem State.fetchInstr_error {s : State} {e : Raise} (h : s.fetchInstr = .error e) :
    e.code = .outOfBoundsMemoryAccess ∧ s.mem.size ≤ e.info.toNat := by
  obtain ⟨hs, e'⟩ | ⟨-, -, e'⟩ | ⟨k, -, -, ⟨e₁, he, e'⟩ | ⟨i, t, -, e'⟩⟩ := s.fetchInstr_cases <;>
    rw [e'] at h <;> cases h
  · exact ⟨rfl, hs⟩
  · exact State.fetchOperands_error (s := s.advance 1) he

end Sys2Proof.Machine
end

