-- ==== Sys2Proof/Laws/PerInstr.lean ====
section
/-! SUPPORT. Sys2Proof/Laws/PerInstr.lean: a fact about every instruction as syntax, one lemma per constructor:
its encoding begins with its opcode word and has as many words as R61's table gives it, two or three. -/

namespace Sys2Proof.Laws.EncodedWords

def Statement (i : Instr) : Prop :=
  ∀ m : OpcodeMap, (encode m i).head? = some (m.word i.op) ∧ (encode m i).length = i.length ∧
    2 ≤ i.length ∧ i.length ≤ 3

theorem movLitReg (lit : Word) (rd : Reg) : Statement (.movLitReg lit rd) :=
  fun _ => ⟨rfl, rfl, Nat.le_of_ble_eq_true rfl, Nat.le_of_ble_eq_true rfl⟩
theorem movRegReg (rs rd : Reg) : Statement (.movRegReg rs rd) :=
  fun _ => ⟨rfl, rfl, Nat.le_of_ble_eq_true rfl, Nat.le_of_ble_eq_true rfl⟩
theorem movRegMem (rs : Reg) (a : Word) : Statement (.movRegMem rs a) :=
  fun _ => ⟨rfl, rfl, Nat.le_of_ble_eq_true rfl, Nat.le_of_ble_eq_true rfl⟩
theorem movMemReg (a : Word) (rd : Reg) : Statement (.movMemReg a rd) :=
  fun _ => ⟨rfl, rfl, Nat.le_of_ble_eq_true rfl, Nat.le_of_ble_eq_true rfl⟩
theorem addRegReg (i1 i2 : Word) : Statement (.addRegReg i1 i2) :=
  fun _ => ⟨rfl, rfl, Nat.le_of_ble_eq_true rfl, Nat.le_of_ble_eq_true rfl⟩
theorem jumpNotEq (lit t : Word) : Statement (.jumpNotEq lit t) :=
  fun _ => ⟨rfl, rfl, Nat.le_of_ble_eq_true rfl, Nat.le_of_ble_eq_true rfl⟩
theorem pushLit (lit : Word) : Statement (.pushLit lit) :=
  fun _ => ⟨rfl, rfl, Nat.le_of_ble_eq_true rfl, Nat.le_of_ble_eq_true rfl⟩
theorem pushReg (rs : Reg) : Statement (.pushReg rs) :=
  fun _ => ⟨rfl, rfl, Nat.le_of_ble_eq_true rfl, Nat.le_of_ble_eq_true rfl⟩
theorem pop (rd : Reg) : Statement (.pop rd) :=
  fun _ => ⟨rfl, rfl, Nat.le_of_ble_eq_true rfl, Nat.le_of_ble_eq_true rfl⟩

end Sys2Proof.Laws.EncodedWords
end

