-- ==== Sys2Proof/Tests/Slice0.lean ====
section
/-! SUPPORT. Sys2Proof/Tests/Slice0.lean: tests whose expected results come from the spec (the vector names S, F,
M, A, J, K and H are those of 95_test_vectors.md), and for every statement with hypotheses a witness that they
can be met. -/

namespace Sys2Proof.Tests

open Sys2Proof.Machine

/-- A machine of `n` words after construction, with `ws` at address 0. -/
def small (n : Nat) (ws : List Word) : State :=
  (newCPU Config.default { last := BitVec.ofNat 16 (n - 1), cells := [] }).placeWords 0 ws

/-- The next state of an outcome, if it is one. -/
def nextOf : Host.Outcome State Fault Refusal → Option State
  | .next s => some s
  | .fault _ => none
  | .refused _ => none

/-- The state after one step. -/
def stepped (s : State) : Option State := nextOf (step s)

def unchecked (s : State) : State := { s with config := { s.config with stackCheck := .unchecked } }

/-! ### Well-formedness -/

theorem test_raw_index_1_ill_formed : (Instr.addRegReg 0x000C 0x0002).wellFormed = false := by decide
theorem test_raw_index_2_ill_formed : (Instr.addRegReg 0x0002 0xFFFF).wellFormed = false := by decide
theorem test_raw_index_11_well_formed : (Instr.addRegReg 0x000B 0x0000).wellFormed = true := by decide

/-! ### Decoding, the words written out from R61 and R63 -/

theorem test_decode_movLitReg : decode .default [0x0010, 0x7777, 0xFFFF] = .instr (.movLitReg 0x7777 .r2) [] := by decide
theorem test_decode_movRegReg : decode .default [0x0011, 0x000A, 0x0000] = .instr (.movRegReg .sp .ip) [] := by decide
theorem test_decode_movRegMem : decode .default [0x0012, 0x0009, 0x0010] = .instr (.movRegMem .r8 0x0010) [] := by decide
theorem test_decode_movMemReg : decode .default [0x0013, 0xFFFF, 0x000B] = .instr (.movMemReg 0xFFFF .fp) [] := by decide
theorem test_decode_addRegReg : decode .default [0x0014, 0x000C, 0x0002] = .instr (.addRegReg 0x000C 0x0002) [] := by decide
theorem test_decode_jumpNotEq : decode .default [0x0015, 0x0003, 0x0100] = .instr (.jumpNotEq 0x0003 0x0100) [] := by decide
theorem test_decode_pushLit : decode .default [0x0017, 0x0055] = .instr (.pushLit 0x0055) [] := by decide
theorem test_decode_pushReg : decode .default [0x0018, 0x0016, 0x0BEE] = .instr (.pushReg .sp) [0x0BEE] := by decide
theorem test_decode_pop : decode .default [0x001A, 0x000D] = .instr (.pop .acc) [] := by decide
/-- F6: 0x0016 is no opcode of the default map. -/
theorem test_decode_unknown : decode .default [0x0016, 0, 0] = .unknownOpcode 0x0016 := by decide
theorem test_decode_truncated : decode .default [0x0014, 0x000C] = .truncated .addRegReg := by decide
theorem test_decodeTableWord : decodeTableWord 16 0x0018 = some (.pushReg .ip) := by decide

/-! ### One step of each instruction -/

/-- M1: 0x000C names ip, so the move is a jump. -/
theorem test_movLitReg_ip :
    (stepped (small 16 [0x0010, 0x0040, 0x000C])).map (fun t => t.regs.ip) = some 0x0040 := by decide
/-- F2: with N = 65536 the operand words of an opcode at 0xFFFF stand at 0 and 1. -/
theorem test_movLitReg_wraps :
    (stepped (((small 65536 [0x00AB, 0x0002]).placeWords 0xFFFF [0x0010]).writeReg .ip 0xFFFF)).map
      (fun t => (t.regs.r1, t.regs.ip)) = some (0x00AB, 0x0002) := by decide
/-- M3: ip as a source is read after both operand fetches. -/
theorem test_movRegReg_from_ip :
    (stepped (small 16 [0x0011, 0x0000, 0x0002])).map (fun t => (t.regs.r1, t.regs.ip)) = some (3, 3) := by decide
/-- M5 -/
theorem test_movRegReg_to_ip :
    (stepped (small 16 [0x0011, 0x000A, 0x0000])).map (fun t => t.regs.ip) = some 0x000F := by decide
/-- M6 -/
theorem test_movRegMem_ip :
    (stepped (small 16 [0x0012, 0x0000, 0x0005])).map (fun t => (t.wordAt 5, t.regs.ip)) = some (3, 3) := by decide
/-- M7 -/
theorem test_movRegMem_out_of_bounds :
    stepped (small 16 [0x0012, 0x0001, 0x0010]) =
      some ((small 16 [0x0012, 0x0001, 0x0010]).haltedWith .outOfBoundsMemoryAccess 0x0010) := by decide
/-- M8: the instruction reads its own opcode word. -/
theorem test_movMemReg_own_word :
    (stepped (small 16 [0x0013, 0x0000, 0x0001])).map (fun t => t.regs.acc) = some 0x0013 := by decide
/-- M10 -/
theorem test_movMemReg_out_of_bounds :
    (stepped (small 16 [0x0013, 0xFFFF, 0x0002])).map (fun t => (t.status, t.regs.ip)) =
      some (.halted ⟨.outOfBoundsMemoryAccess, 0xFFFF, 0⟩, 0) := by decide
/-- S5, A1 -/
theorem test_addRegReg_wraps :
    (stepped (((small 16 [0x0014, 0x0002, 0x0003]).writeReg .r1 0xFFFF).writeReg .r2 0x0002)).map
      (fun t => (t.regs.acc, t.regs.ip)) = some (0x0001, 3) := by decide
/-- A6: the raw index 0x000C does not alias ip. -/
theorem test_addRegReg_raw_index :
    (stepped (small 16 [0x0014, 0x000C, 0x0002])).map (fun t => t.status) =
      some (.halted ⟨.invalidRegisterIndex, 0x000C, 0⟩) := by decide
/-- J5 -/
theorem test_jumpNotEq_taken :
    (stepped ((small 16 [0x0015, 0x0004, 0x0009]).writeReg .acc 5)).map (fun t => t.regs.ip) = some 9 := by decide
/-- J4 -/
theorem test_jumpNotEq_falls_through :
    (stepped ((small 16 [0x0015, 0x0005, 0x0000]).writeReg .acc 5)).map (fun t => t.regs.ip) = some 3 := by decide
/-- K1 -/
theorem test_pushLit :
    (stepped (small 16 [0x0017, 0x0055])).map (fun t => (t.wordAt 15, t.regs.sp, t.regs.ip)) =
      some (0x0055, 14, 2) := by decide
/-- K9: the unchecked push at sp = 0 overwrites the opcode word and wraps sp. -/
theorem test_pushLit_unchecked_wraps :
    (stepped (unchecked ((small 16 [0x0017, 0x0055]).writeReg .sp 0))).map (fun t => (t.wordAt 0, t.regs.sp)) =
      some (0x0055, 0xFFFF) := by decide
/-- K2: sp is pushed as it was before the decrement. -/
theorem test_pushReg_sp :
    (stepped (small 16 [0x0018, 0x000A])).map (fun t => (t.wordAt 15, t.regs.sp)) = some (0x000F, 14) := by decide
/-- K3 -/
theorem test_pushReg_ip :
    (stepped (small 16 [0x0018, 0x0000])).map (fun t => (t.wordAt 15, t.regs.sp)) = some (0x0002, 14) := by decide
/-- K4: the popped word overwrites the increment. -/
theorem test_pop_sp :
    (stepped (((small 16 [0x001A, 0x000A]).writeReg .sp 13).placeWords 14 [0x0003])).map (fun t => t.regs.sp) =
      some 3 := by decide
/-- K11: the unchecked pop at sp = 0xFFFF reads M[0]. -/
theorem test_pop_unchecked_wraps :
    (stepped (unchecked ((small 16 [0x001A, 0x0002]).writeReg .sp 0xFFFF))).map
      (fun t => (t.regs.sp, t.regs.r1)) = some (0, 0x001A) := by decide

/-! ### Fetch, faults, host -/

/-- F1, its second step: the first operand word would be at N. -/
theorem test_operand_fetch_out_of_bounds :
    (stepped ((small 4 [0x0010, 0x0001, 0x0002, 0x0015]).writeReg .ip 3)).map (fun t => (t.status, t.regs.ip)) =
      some (.halted ⟨.outOfBoundsMemoryAccess, 4, 3⟩, 3) := by decide
/-- A8: the operand fetch faults before the raw index is checked. -/
theorem test_fetch_before_index_check :
    (stepped (small 2 [0x0014, 0x000C])).map (fun t => t.status) =
      some (.halted ⟨.outOfBoundsMemoryAccess, 2, 0⟩) := by decide
/-- F4 -/
theorem test_unknown_faults :
    (stepped (small 16 [])).map (fun t => (t.status, t.regs.ip)) = some (.halted ⟨.unknownOpcode, 0, 0⟩, 0) := by decide
/-- F5 -/
theorem test_unknown_skipped :
    (stepped { small 16 [] with config := { Config.default with unknownOpcode := .skip } }).map
      (fun t => (t.status, t.regs.ip)) = some (.running, 1) := by decide
/-- K6 and R171: the host gets the record, and gets it again. -/
theorem test_halted_answers_again :
    let s := (hostCall .step (small 16 [0x001A, 0x0002])).1
    hostCall .step s = (s, .fault ⟨.stackUnderflow, 0x000F, 0⟩) := by decide
/-- K7 -/
theorem test_pop_unchecked_out_of_bounds :
    (stepped (unchecked (small 16 [0x001A, 0x0002]))).map (fun t => (t.status, t.regs.sp)) =
      some (.halted ⟨.outOfBoundsMemoryAccess, 0x0010, 0⟩, 15) := by decide
/-- K8 and K10 -/
theorem test_push_faults :
    (stepped ((small 16 [0x0017, 0x0055]).writeReg .sp 0)).map (fun t => t.status) =
        some (.halted ⟨.stackOverflow, 0, 0⟩) ∧
      (stepped ((small 16 [0x0017, 0x0055]).writeReg .sp 16)).map (fun t => t.status) =
        some (.halted ⟨.outOfBoundsMemoryAccess, 0x0010, 0⟩) := by decide
/-- H2 -/
theorem test_getRegister_sp :
    (boot Config.default 40 []).map (fun s => hostCall (.getRegister "sp") s) =
      (boot Config.default 40 []).map (fun s => (s, .value 39)) := by decide
/-- H3 and H4 -/
theorem test_getRegister_unknown :
    (small 16 []).getRegister "R1" = .error .unknownRegister ∧
      (small 16 []).getRegister "pc" = .error .unknownRegister := by decide
/-- H5 -/
theorem test_viewMemoryAt_out_of_bounds :
    hostCall (.viewMemoryAt 16) (small 16 []) = (small 16 [], .error (.outOfBoundsMemoryAccess 16)) := by decide
/-- R191 at the edges of the size. -/
theorem test_createMemory_sizes :
    (createMemory 0).isSome = false ∧ (createMemory 1).isSome = true ∧ (createMemory 65536).isSome = true ∧
      (createMemory 65537).isSome = false := by decide
/-- D4: the bytes 10 00 34 12 02 00 are the words of MOV_LIT_REG 0x1234, r1 in little-endian order. -/
theorem test_image_byte_order :
    (bootImage Config.default 16 .little [0x10, 0x00, 0x34, 0x12, 0x02, 0x00]).map
        (fun s => (s.wordAt 0, s.wordAt 1, s.wordAt 2)) =
        some (0x0010, 0x1234, 0x0002) ∧
      (bootImage Config.default 16 .big [0x00, 0x10]).map (fun s => s.wordAt 0) = some 0x0010 ∧
      (bootImage Config.default 16 .little [0x10]).isSome = false := by decide
/-- R195: a host writes a program into a fresh CPU's memory, steps it, and then has no write any more. -/
theorem test_host_writes_until_first_step :
    let writes : List HostMove := [.newCPU Config.default, .write 0 0x0017, .write 1 0x0055]
    (hostMoves (writes ++ [.call .step]) (.created (small 16 []).mem)).map (fun h => h.memory.read 15) = some 0x0055 ∧
      hostMoves (writes ++ [.call .step, .write 2 0]) (.created (small 16 []).mem) = none := by decide
/-- R168 and R197: a query leaves the write window open. -/
theorem test_query_is_no_step :
    (hostMoves [.newCPU Config.default, .call .debug, .write 3 7] (.created (small 16 []).mem)).map
      (fun h => h.memory.read 3) = some 7 := by decide
/-- P_END_IP ends a run at a boundary and not before it (R199). -/
theorem test_run_end :
    let s := { small 16 [0x0010, 1, 2] with config := { Config.default with endIp := some 3 } }
    s.runEnd = .goesOn ∧ (run 5 s).runEnd = .endsNormally ∧ (run 5 s).regs.ip = 3 := by decide
/-- With P_END_IP at the ip a run starts from, no step is taken (R199; the model's choice, log entry 15). -/
theorem test_run_end_at_start :
    let s := { small 16 [0x0010, 1, 2] with config := { Config.default with endIp := some 0 } }
    s.runEnd = .endsNormally ∧ run 5 s = s := by decide
/-- The first step of a row placed after reset runs it. -/
theorem test_withFetchWord :
    (stepped (State.reset.withFetchWord 16 0x0013)).map (fun t => t.regs.ip) = some 0x0013 := by decide

/-! ### Witnesses: for each statement with hypotheses, a state and operands that meet them, at the edge of each
clause -/

theorem witness_injective : OpcodeMap.default.Injective := by decide

/-- DecodedWordsAreEncoded and OpcodeFixesArity. -/
theorem witness_decoded :
    decode .default [0x0018, 0xFFFF, 5] = .instr (.pushReg .r2) [5] ∧
      decode .default [0x0018, 0x0000] = .instr (.pushReg .ip) [] := by decide

/-- UnknownExactlyOutsideMap: both kinds of word exist. -/
theorem witness_unknown : OpcodeMap.default.find? 0x0016 = none ∧ OpcodeMap.default.find? 0x001A = some .pop := by decide

/-- DecodedWordsAreEncoded: beside a register word of 12 or more, a literal, an address and raw indices of 12 or
more. -/
theorem witness_operand_kinds :
    decode .default [0x0010, 0xFFFF, 0xFFFF] = .instr (.movLitReg 0xFFFF .r2) [] ∧
      encode .default (.movLitReg 0xFFFF .r2) = [0x0010, 0xFFFF, 0x0003] ∧
      decode .default [0x0012, 0x0017, 0x000C] = .instr (.movRegMem .fp 0x000C) [] ∧
      encode .default (.addRegReg 0x000C 0xFFFF) = [0x0014, 0x000C, 0xFFFF] := by decide

/-- MemWriteChangesOneWord, HostWritesUntilFirstStep, MovRegMemRule and MovMemRegRule: the last address and the first one past it. -/
theorem witness_edge_addresses :
    (small 16 [7]).mem.wf = true ∧ (15 : Word).toNat < (small 16 [7]).mem.size ∧
      (small 16 [7]).mem.size ≤ (16 : Word).toNat := by decide

/-- EqualReadsAreEqualMemories: writes in two orders. -/
theorem witness_equal_reads :
    let m := (small 16 []).mem
    ((m.write 3 1).write 5 2).wf = true ∧ ((m.write 5 2).write 3 1).wf = true ∧
      ((m.write 3 1).write 5 2).last = ((m.write 5 2).write 3 1).last ∧
      ∀ a, ((m.write 3 1).write 5 2).read a = ((m.write 5 2).write 3 1).read a :=
  ⟨by decide, by decide, rfl, fun _ => congrArg (fun m => Memory.read m _) (by decide)⟩

/-- WordsKeptUnlessStored: a step that changes a word. -/
theorem witness_word_changes :
    (stepped (small 16 [0x0017, 0x0055])).map (fun t => decide (t.wordAt 15 ≠ (small 16 [0x0017, 0x0055]).wordAt 15)) =
      some true := by decide

/-- StoreSeenByNextFetch: the word after the instruction is the last one. -/
theorem witness_store_ahead :
    (small 4 [0x0012, 0, 3]).mem.wf = true ∧
      ((small 4 [0x0012, 0, 3]).readReg .ip + 3).toNat < (small 4 [0x0012, 0, 3]).mem.size := by decide

/-- FullMemoryNeverOutOfBounds, FaultsArePrecise, RunningStepAnswers: a step of a full memory that halts. -/
theorem witness_full_memory_halts :
    (State.reset.withFetchWord 16 0x001A).mem.size = 65536 ∧ (State.reset.withFetchWord 16 0x001A).Running ∧
      (stepped (State.reset.withFetchWord 16 0x001A)).map (fun t => t.status) =
        some (.halted ⟨.stackUnderflow, 0xFFFF, 0⟩) := by decide

/-- FetchIsPostIncrement: ip at the last word with one fetch, and past it. -/
theorem witness_fetch_edges :
    let s := (small 16 []).writeReg .ip 15
    let u := (small 16 []).writeReg .ip 16
    (s.readReg .ip).toNat < s.mem.size ∧ (s.readReg .ip).toNat + 1 ≤ s.mem.size ∧
      u.mem.size ≤ (u.readReg .ip).toNat := by
  decide

/-- ActionBeginsPastOperands and WordsKeptUnlessStored: an instruction is fetched. -/
theorem witness_fetched :
    ∃ t, (small 2 [0x0017, 0x0055]).fetchInstr = .ok (.instr (.pushLit 0x0055), t) := ⟨_, rfl⟩

/-- StepRunsDecodedInstruction: an instruction that ends at the last word. -/
theorem witness_holds_words :
    let s := (small 5 [0, 0, 0x0012, 0x0001, 0x0004]).writeReg .ip 2
    s.Running ∧ s.HoldsWords (s.readReg .ip) [0x0012, 0x0001, 0x0004] ∧
      decode s.config.opcodes [0x0012, 0x0001, 0x0004] = .instr (.movRegMem .acc 4) [] :=
  ⟨rfl, ⟨by decide, by decide, by decide, by decide, by decide, by decide, trivial⟩, by decide⟩

/-- OpcodeFetchOutOfBoundsHalts. -/
theorem witness_ip_past_end :
    let s := (small 16 []).writeReg .ip 16
    s.Running ∧ s.mem.size ≤ (s.readReg .ip).toNat := by decide

/-- UnknownOpcodeHaltsOrIsSkipped, under both policies. -/
theorem witness_unknown_at_ip :
    let s := small 1 [0x0016]
    let u : State := { s with config := { Config.default with unknownOpcode := .skip } }
    s.Running ∧ (s.readReg .ip).toNat < s.mem.size ∧ (∀ k : Op, s.config.opcodes.word k ≠ s.wordAt (s.readReg .ip)) ∧
      s.config.unknownOpcode = .fault ∧ u.Running ∧ (u.readReg .ip).toNat < u.mem.size ∧
      (∀ k : Op, u.config.opcodes.word k ≠ u.wordAt (u.readReg .ip)) ∧ u.config.unknownOpcode = .skip :=
  ⟨by decide, by decide, fun k => by cases k <;> decide, by decide, by decide, by decide,
    fun k => by cases k <;> decide, by decide⟩

/-- HaltedForGood. -/
theorem witness_halted : ((small 16 []).haltedWith .unknownOpcode 0).status = .halted ⟨.unknownOpcode, 0, 0⟩ := by decide

/-- FaultCodesByInstruction: each action fault is raised by some instruction. -/
theorem witness_action_faults :
    (small 16 []).Running ∧
    (nextOf (exec (.movRegMem .acc 16) (small 16 []))).map (fun t => t.status) =
      some (.halted ⟨.outOfBoundsMemoryAccess, 16, 0⟩) ∧
    (nextOf (exec (.addRegReg 11 12) (small 16 []))).map (fun t => t.status) =
      some (.halted ⟨.invalidRegisterIndex, 12, 0⟩) ∧
    (nextOf (exec (.pushReg .r1) ((small 16 []).writeReg .sp 0))).map (fun t => t.status) =
      some (.halted ⟨.stackOverflow, 0, 0⟩) ∧
    (nextOf (exec (.pop .r1) (small 16 []))).map (fun t => t.status) =
      some (.halted ⟨.stackUnderflow, 15, 0⟩) := by decide

/-- StepKeepsWellFormed and StepKeepsParameters: a well-formed state with a next state, completing and halting. -/
theorem witness_wf_steps :
    (small 16 [0x0017, 0x0055]).wf = true ∧ (stepped (small 16 [0x0017, 0x0055])).isSome = true ∧
      (small 16 []).wf = true ∧ (stepped (small 16 [])).isSome = true := by decide

/-- BootIsWellFormed: the smallest and the largest memory, with writes to one address twice. -/
theorem witness_boot :
    (boot Config.default 1 [(0, 1), (0, 2)]).isSome = true ∧
      (boot Config.default 65536 [(0xFFFF, 1), (0, 2)]).isSome = true := by decide

/-- OnlyWrittenRegistersChange: fp is not written by a push that completes. -/
theorem witness_not_written :
    (Instr.pushReg .fp).writes .fp = false ∧ (nextOf (exec (.pushReg .fp) (small 16 []))).isSome = true := by decide

/-- GeneralRegistersOnlyWhenNamed: r1 and r8, the ends of the range, not named. -/
theorem witness_not_named :
    2 ≤ Reg.r1.index.toNat ∧ Reg.r8.index.toNat ≤ 9 ∧ (Instr.movRegReg .ip .r2).names .r1 = false ∧
      (Instr.addRegReg 8 12).names .r8 = false := by decide

/-- SequentialFlow: a jump that falls through, and an instruction that is no jump. -/
theorem witness_sequential :
    (nextOf (exec (.jumpNotEq 0 9) (small 16 []))).map (fun t => t.status) = some .running ∧
      (Instr.jumpNotEq 0 9).destination ≠ some .ip ∧ (small 16 []).readReg .acc = 0 ∧
      (nextOf (exec (.pushLit 9) (small 16 []))).map (fun t => t.status) = some .running ∧
      (Instr.pushLit 9).destination ≠ some .ip := by decide

/-- What the fetch part of an instruction's rule supposes. -/
abbrev AtOpcode (k : Op) (s : State) : Prop :=
  s.Running ∧ s.config.opcodes.Injective ∧ (s.readReg .ip).toNat < s.mem.size ∧
    s.wordAt (s.readReg .ip) = s.config.opcodes.word k

/-- Each clause of FetchesOneOperand and FetchesTwoOperands, for every opcode: memories that end after the
opcode word, after the first operand word, and after the second. -/
theorem witness_fetch_clauses (k : Op) :
    AtOpcode k (small 1 [OpcodeMap.default.word k]) ∧
      (small 1 [OpcodeMap.default.word k]).mem.size ≤ (0 + 1 : Word).toNat ∧
    AtOpcode k (small 2 [OpcodeMap.default.word k]) ∧
      ¬ (small 2 [OpcodeMap.default.word k]).mem.size ≤ (0 + 1 : Word).toNat ∧
    (small 2 [OpcodeMap.default.word k]).mem.size ≤ (0 + 2 : Word).toNat ∧
    AtOpcode k (small 3 [OpcodeMap.default.word k]) ∧
      ¬ (small 3 [OpcodeMap.default.word k]).mem.size ≤ (0 + 2 : Word).toNat := by
  cases k <;> decide

/-- AddRegRegRule and AddCommutes: the raw indices 11 and 12, and registers at both ends of the table. -/
theorem witness_raw_indices :
    12 ≤ (12 : Word).toNat ∧ (11 : Word).toNat < 12 ∧ Reg.fp.index = 11 ∧ Reg.ip.index = 0 ∧
      (Instr.addRegReg 11 0).wellFormed = true := by decide

/-- JumpNotEqRule: a taken jump to N. -/
theorem witness_jump_out :
    (1 : Word) ≠ (small 16 []).readReg .acc ∧ (small 16 []).Running ∧ (small 16 []).mem.size ≤ (16 : Word).toNat := by decide

/-- PushLitRule and PushRegRule: sp = 0, sp = N, and between them; sp = 0 unchecked. -/
theorem witness_push_clauses :
    let z := (small 16 []).writeReg .sp 0
    let n := (small 16 []).writeReg .sp 16
    (z.config.stackCheck = .checked ∧ z.readReg .sp = 0) ∧
      (¬ (n.config.stackCheck = .checked ∧ n.readReg .sp = 0) ∧ n.mem.size ≤ (n.readReg .sp).toNat) ∧
      (¬ ((small 16 []).config.stackCheck = .checked ∧ (small 16 []).readReg .sp = 0) ∧
        ¬ (small 16 []).mem.size ≤ ((small 16 []).readReg .sp).toNat ∧ (small 16 []).mem.wf = true) ∧
      (¬ ((unchecked z).config.stackCheck = .checked ∧ (unchecked z).readReg .sp = 0) ∧
        ¬ (unchecked z).mem.size ≤ ((unchecked z).readReg .sp).toNat) := by decide

/-- PopRule: sp = N-1 checked and unchecked, and sp = N-2. -/
theorem witness_pop_clauses :
    let s := small 16 []
    let u := unchecked s
    let b := s.writeReg .sp 14
    (s.config.stackCheck = .checked ∧ s.mem.size ≤ (s.readReg .sp).toNat + 1) ∧
      (¬ (u.config.stackCheck = .checked ∧ u.mem.size ≤ (u.readReg .sp).toNat + 1) ∧
        u.mem.size ≤ (u.readReg .sp + 1).toNat) ∧
      (¬ (b.config.stackCheck = .checked ∧ b.mem.size ≤ (b.readReg .sp).toNat + 1) ∧
        ¬ b.mem.size ≤ (b.readReg .sp + 1).toNat) := by decide

/-- PushPushPopPop: the lowest and the highest sp, popping into ip and fp. -/
theorem witness_lifo :
    let s := (small 16 []).writeReg .sp 2
    s.mem.wf = true ∧ 2 ≤ (s.readReg .sp).toNat ∧ (s.readReg .sp).toNat < s.mem.size ∧
      2 ≤ ((small 16 []).readReg .sp).toNat ∧ ((small 16 []).readReg .sp).toNat < (small 16 []).mem.size ∧
      Reg.ip ≠ .fp ∧ Reg.ip ≠ .sp ∧ Reg.fp ≠ .sp := by decide

/-- CallThenReturn: sp = 1, and the state right after the call is one to return from. -/
theorem witness_call :
    let s := (small 16 []).writeReg .sp 1
    s.mem.wf = true ∧ 1 ≤ (s.readReg .sp).toNat ∧ (s.readReg .sp).toNat < s.mem.size := by decide

/-- CreatedMemoryIsZeroFilled: sizes at both ends, and just outside them. -/
theorem witness_sizes : (1 ≤ 1 ∧ 1 ≤ 65536) ∧ (1 ≤ 65536 ∧ 65536 ≤ 65536) ∧ 65536 < 65537 := by decide

/-- GetRegisterByName and QueriesChangeNothing. -/
theorem witness_names_and_queries :
    (∀ r : Reg, regName r ≠ "R1") ∧ HostCall.debug ≠ .step ∧ (small 16 []).mem.size ≤ (16 : Word).toNat :=
  ⟨fun r => by cases r <;> decide, by decide, by decide⟩

/-- NoHostWriteAfterFirstStep: moves that a stepped session has, construction among them. -/
theorem witness_moves_after_step :
    (hostMoves [.call .step, .newCPU Config.default, .call .step] (.stepped (small 16 []))).isSome = true := by decide

/-- WritesBeforeOrAfterConstruction, at the smallest size. -/
theorem witness_create_and_construct :
    Config.default.opcodes.Injective ∧ createMemory 1 = some { last := 0, cells := [] } := by decide

/-- HostMovesKeepWellFormed: a well-formed session of each kind that has a move. -/
theorem witness_session_moves :
    let s := small 16 [0x0017, 0x0055]
    ((Session.created s.mem).wf = true ∧ (hostMove (.write 15 1) (.created s.mem)).isSome = true) ∧
      ((Session.constructed s).wf = true ∧ (hostMove (.write 15 1) (.constructed s)).isSome = true ∧
        (hostMove (.call .step) (.constructed s)).isSome = true) ∧
      (Session.stepped s).wf = true ∧ (hostMove (.newCPU Config.default) (.stepped s)).isSome = true := by decide

end Sys2Proof.Tests
end

section
/-! PROOFS. A write of one register commutes with every operation that does not name it; from this, r1 to r8 are
neither read nor written implicitly (10_state.md R25). -/

namespace Sys2Proof

/-- The indices 2 to 9 are none of ip, acc and sp. -/
theorem Reg.ne_of_general_index {q : Reg} (hlo : 2 ≤ q.index.toNat) (hhi : q.index.toNat ≤ 9) :
    q ≠ .ip ∧ q ≠ .acc ∧ q ≠ .sp := by
  refine ⟨?_, ?_, ?_⟩ <;> rintro rfl
  · exact absurd hlo (by decide)
  · exact absurd hlo (by decide)
  · exact absurd hhi (by decide)

end Sys2Proof

namespace Sys2Proof.Machine

/-! ### The shared operations after a register write -/

@[simp] theorem State.writeReg_memRead (s : State) (q : Reg) (v a : Word) :
    (s.writeReg q v).memRead a = s.memRead a := rfl

theorem State.writeReg_advance (s : State) {q : Reg} (v : Word) (n : Nat) (hip : q ≠ .ip) :
    (s.writeReg q v).advance n = (s.advance n).writeReg q v := by
  unfold State.advance
  rw [State.readReg_writeReg_other s v hip.symm, State.writeReg_comm s _ _ hip]

theorem State.writeReg_takeFault (s : State) {q : Reg} (v : Word) (e : Raise) (hip : q ≠ .ip) :
    (s.writeReg q v).takeFault e = (s.takeFault e).writeReg q v := by
  unfold State.takeFault
  rw [State.readReg_writeReg_other s v hip.symm]
  rfl

theorem State.writeReg_memWrite (s : State) (q : Reg) (v a w : Word) :
    (s.writeReg q v).memWrite a w = (s.memWrite a w).map (State.writeReg · q v) := by
  unfold State.memWrite
  rw [State.writeReg_mem]
  split <;> rfl

theorem State.writeReg_push (s : State) {q : Reg} (v w : Word) (hsp : q ≠ .sp) :
    (s.writeReg q v).push w = (s.push w).map (State.writeReg · q v) := by
  unfold State.push
  simp only [State.readReg_writeReg_other s v hsp.symm, State.writeReg_config, State.writeReg_memWrite]
  split
  · rfl
  · cases s.memWrite (s.readReg .sp) w with
    | error e => rfl
    | ok t => exact congrArg Except.ok (State.writeReg_comm t _ _ hsp)

theorem State.writeReg_pop (s : State) {q rd : Reg} (v : Word) (hsp : q ≠ .sp) (hrd : q ≠ rd) :
    (s.writeReg q v).pop rd = (s.pop rd).map (State.writeReg · q v) := by
  unfold State.pop
  simp only [State.readReg_writeReg_other s v hsp.symm, State.writeReg_config, State.writeReg_mem,
    State.writeReg_memRead, State.writeReg_comm s v _ hsp]
  split
  · rfl
  · split
    · rfl
    · exact congrArg Except.ok (State.writeReg_comm _ _ _ hrd)

/-- An action that commutes with the write of a register other than ip makes an instruction that does: a fault is
taken in the state before the step, and its record holds no register but ip. -/
theorem State.writeReg_finish {s : State} {q : Reg} {v : Word} {act act' : Except Raise State} (hip : q ≠ .ip)
    (h : act' = act.map (State.writeReg · q v)) :
    (s.writeReg q v).finish act' = onNext (State.writeReg · q v) (s.finish act) := by
  subst h
  cases act with
  | ok t => rfl
  | error e => exact congrArg Host.Outcome.next (s.writeReg_takeFault v e hip)

/-! ### The nine instructions after a register write -/

theorem writeReg_execMovLitReg (s : State) {q rd : Reg} (v lit : Word) (hip : q ≠ .ip) (hrd : q ≠ rd) :
    execMovLitReg lit rd (s.writeReg q v) = onNext (State.writeReg · q v) (execMovLitReg lit rd s) := by
  refine State.writeReg_finish hip (congrArg Except.ok ?_)
  rw [s.writeReg_advance v 3 hip, State.writeReg_comm _ _ _ hrd]

theorem writeReg_execMovRegReg (s : State) {q rs rd : Reg} (v : Word) (hip : q ≠ .ip) (hrs : q ≠ rs) (hrd : q ≠ rd) :
    execMovRegReg rs rd (s.writeReg q v) = onNext (State.writeReg · q v) (execMovRegReg rs rd s) := by
  refine State.writeReg_finish hip (congrArg Except.ok ?_)
  rw [s.writeReg_advance v 3 hip, State.readReg_writeReg_other _ v hrs.symm, State.writeReg_comm _ _ _ hrd]

theorem writeReg_execMovRegMem (s : State) {q rs : Reg} (v a : Word) (hip : q ≠ .ip) (hrs : q ≠ rs) :
    execMovRegMem rs a (s.writeReg q v) = onNext (State.writeReg · q v) (execMovRegMem rs a s) := by
  refine State.writeReg_finish hip ?_
  rw [s.writeReg_advance v 3 hip, State.readReg_writeReg_other _ v hrs.symm, State.writeReg_memWrite]

theorem writeReg_execMovMemReg (s : State) {q rd : Reg} (v a : Word) (hip : q ≠ .ip) (hrd : q ≠ rd) :
    execMovMemReg a rd (s.writeReg q v) = onNext (State.writeReg · q v) (execMovMemReg a rd s) := by
  refine State.writeReg_finish hip ?_
  rw [s.writeReg_advance v 3 hip, State.writeReg_memRead]
  obtain ⟨-, e⟩ | ⟨-, e⟩ := (s.advance 3).memRead_cases a <;> rw [e]
  · exact congrArg Except.ok (State.writeReg_comm _ _ _ hrd)
  · rfl

/-- A raw index of 12 or more names no register: the fault is then the same whatever `q` holds. -/
theorem writeReg_execAddRegReg (s : State) {q : Reg} (v : Word) {i1 i2 : Word} (hip : q ≠ .ip) (hacc : q ≠ .acc)
    (h1 : i1.toNat < 12 → Reg.ofWord i1 ≠ q) (h2 : i2.toNat < 12 → Reg.ofWord i2 ≠ q) :
    execAddRegReg i1 i2 (s.writeReg q v) = onNext (State.writeReg · q v) (execAddRegReg i1 i2 s) := by
  refine State.writeReg_finish hip ?_
  obtain ⟨hi1, e1⟩ | ⟨-, e1⟩ := rawRegister_cases i1 <;> rw [e1]
  · obtain ⟨hi2, e2⟩ | ⟨-, e2⟩ := rawRegister_cases i2 <;> rw [e2]
    · refine congrArg Except.ok ?_
      rw [s.writeReg_advance v 3 hip, State.readReg_writeReg_other _ v (h1 hi1),
        State.readReg_writeReg_other _ v (h2 hi2), State.writeReg_comm _ _ _ hacc]
    · rfl
  · rfl

theorem writeReg_execJumpNotEq (s : State) {q : Reg} (v lit t : Word) (hip : q ≠ .ip) (hacc : q ≠ .acc) :
    execJumpNotEq lit t (s.writeReg q v) = onNext (State.writeReg · q v) (execJumpNotEq lit t s) := by
  refine State.writeReg_finish hip (congrArg Except.ok ?_)
  have hcond : ((s.advance 3).writeReg q v).differsFromAcc lit = (s.advance 3).differsFromAcc lit := by
    unfold State.differsFromAcc
    rw [State.readReg_writeReg_other _ v hacc.symm]
  rw [s.writeReg_advance v 3 hip, hcond]
  split
  · exact State.writeReg_comm _ _ _ hip
  · rfl

theorem writeReg_execPushLit (s : State) {q : Reg} (v lit : Word) (hip : q ≠ .ip) (hsp : q ≠ .sp) :
    execPushLit lit (s.writeReg q v) = onNext (State.writeReg · q v) (execPushLit lit s) := by
  refine State.writeReg_finish hip ?_
  rw [s.writeReg_advance v 2 hip, State.writeReg_push _ _ _ hsp]

theorem writeReg_execPushReg (s : State) {q rs : Reg} (v : Word) (hip : q ≠ .ip) (hsp : q ≠ .sp) (hrs : q ≠ rs) :
    execPushReg rs (s.writeReg q v) = onNext (State.writeReg · q v) (execPushReg rs s) := by
  refine State.writeReg_finish hip ?_
  rw [s.writeReg_advance v 2 hip, State.readReg_writeReg_other _ v hrs.symm, State.writeReg_push _ _ _ hsp]

theorem writeReg_execPop (s : State) {q rd : Reg} (v : Word) (hip : q ≠ .ip) (hsp : q ≠ .sp) (hrd : q ≠ rd) :
    execPop rd (s.writeReg q v) = onNext (State.writeReg · q v) (execPop rd s) := by
  refine State.writeReg_finish hip ?_
  rw [s.writeReg_advance v 2 hip, State.writeReg_pop _ _ hsp hrd]

/-- Settles O26: r1 to r8 are none of ip, acc and sp, the only registers used without being named, so each
instruction commutes with the write of one it does not name. -/
theorem generalRegistersOnlyWhenNamed : Obligations.GeneralRegistersOnlyWhenNamed := by
  intro i s q v hlo hhi hnames
  obtain ⟨hip, hacc, hsp⟩ := Reg.ne_of_general_index hlo hhi
  cases i with
  | movLitReg lit rd =>
    exact writeReg_execMovLitReg s v lit hip (ne_of_beq_false hnames).symm
  | movRegReg rs rd =>
    obtain ⟨hrs, hrd⟩ := Bool.or_eq_false_iff.1 hnames
    exact writeReg_execMovRegReg s v hip (ne_of_beq_false hrs).symm (ne_of_beq_false hrd).symm
  | movRegMem rs a =>
    exact writeReg_execMovRegMem s v a hip (ne_of_beq_false hnames).symm
  | movMemReg a rd =>
    exact writeReg_execMovMemReg s v a hip (ne_of_beq_false hnames).symm
  | addRegReg i1 i2 =>
    simp only [Instr.names, Bool.or_eq_false_iff, Bool.and_eq_false_imp, decide_eq_true_eq,
      beq_eq_false_iff_ne] at hnames
    exact writeReg_execAddRegReg s v hip hacc hnames.1 hnames.2
  | jumpNotEq lit t => exact writeReg_execJumpNotEq s v lit t hip hacc
  | pushLit lit => exact writeReg_execPushLit s v lit hip hsp
  | pushReg rs => exact writeReg_execPushReg s v hip hsp (ne_of_beq_false hnames).symm
  | pop rd => exact writeReg_execPop s v hip hsp (ne_of_beq_false hnames).symm

end Sys2Proof.Machine
end

section
/-! PROOFS. Which words of memory an operation, an instruction and a step change: the one stored to, or none
(20_memory.md R43, R56). -/

namespace Sys2Proof.Machine

/-- States of one memory read the same word at every address. -/
theorem State.wordAt_of_mem_eq {s t : State} (h : t.mem = s.mem) (a : Word) : t.wordAt a = s.wordAt a :=
  congrArg (Memory.read · a) h

/-- A state whose memory is one write away keeps the size and every other word. -/
theorem keepsMemory_of_mem_write {s t : State} {a v : Word} (h : t.mem = s.mem.write a v) : KeepsMemory s t [a] := by
  refine ⟨by rw [h, Memory.write_size], fun b hb => ?_⟩
  rw [State.wordAt, h]
  exact s.mem.read_write_other v (List.ne_of_not_mem_cons hb)

/-- Settles O7: a canonical memory reads back what was written, and the write touches no other address. -/
theorem memWriteChangesOneWord : Obligations.MemWriteChangesOneWord := by
  intro s a v hw
  refine ⟨State.memWrite_of_le v, fun ha => ?_⟩
  exact ⟨_, State.memWrite_of_lt v ha, Memory.read_write_same a v hw, keepsMemory_of_mem_write rfl, rfl, rfl, rfl⟩

/-! ### What a step does to memory -/

/-- The memory of `t` is that of `s`, or one write away from it: a write at the address `stored`, which exists. -/
def StoresAtMost (stored : Option Word) (s t : State) : Prop :=
  t.mem = s.mem ∨ ∃ a v, stored = some a ∧ a.toNat < s.mem.size ∧ t.mem = s.mem.write a v

theorem State.memWrite_ok {s t : State} {a v : Word} (h : s.memWrite a v = .ok t) : StoresAtMost (some a) s t := by
  obtain ⟨ha, e⟩ | ⟨-, e⟩ := s.memWrite_cases a v <;> rw [e] at h <;> cases h
  exact .inr ⟨a, v, rfl, ha, rfl⟩

theorem State.push_ok {s t : State} {v : Word} (h : s.push v = .ok t) :
    StoresAtMost (some (s.readReg .sp)) s t := by
  obtain ⟨-, -, e⟩ | ⟨-, -, e⟩ | ⟨-, hsp, e⟩ := s.push_cases v <;> rw [e] at h <;> cases h
  exact .inr ⟨_, v, rfl, hsp, rfl⟩

/-- Popping clears nothing (R56). -/
theorem State.pop_ok_mem {s t : State} {rd : Reg} (h : s.pop rd = .ok t) : t.mem = s.mem := by
  obtain ⟨-, -, e⟩ | ⟨-, -, e⟩ | ⟨-, -, e⟩ := s.pop_cases rd <;> rw [e] at h <;> cases h
  rfl

/-- A fault that ends the action stores nothing, so the step stores what the completed action does. -/
theorem State.finish_storesAtMost {s t : State} {act : Except Raise State} {stored : Option Word}
    (h : s.finish act = .next t) (hact : ∀ u, act = .ok u → StoresAtMost stored s u) : StoresAtMost stored s t := by
  obtain e | ⟨e, -, rfl⟩ := State.finish_cases h
  · exact hact t e
  · exact .inl rfl

/-- Every instruction stores at most to its store address. -/
theorem exec_storesAtMost {i : Instr} {s t : State} (h : exec i s = .next t) :
    StoresAtMost (i.storeAddress s) s t := by
  cases i with
  | movLitReg lit rd => cases h; exact .inl rfl
  | movRegReg rs rd => cases h; exact .inl rfl
  | movRegMem rs a => exact State.finish_storesAtMost h fun u hu => State.memWrite_ok (s := s.advance 3) hu
  | movMemReg a rd =>
    refine State.finish_storesAtMost h fun u hu => .inl ?_
    obtain ⟨-, e⟩ | ⟨-, e⟩ := (s.advance 3).memRead_cases a <;> rw [e] at hu <;> cases hu
    rfl
  | addRegReg i1 i2 =>
    refine State.finish_storesAtMost h fun u hu => .inl ?_
    obtain ⟨-, e1⟩ | ⟨-, e1⟩ := rawRegister_cases i1 <;> rw [e1] at hu
    · obtain ⟨-, e2⟩ | ⟨-, e2⟩ := rawRegister_cases i2 <;> rw [e2] at hu <;> cases hu
      rfl
    · cases hu
  | jumpNotEq lit a =>
    cases h
    refine .inl ?_
    split <;> rfl
  | pushLit lit => exact State.finish_storesAtMost h fun u hu => State.push_ok (s := s.advance 2) hu
  | pushReg rs => exact State.finish_storesAtMost h fun u hu => State.push_ok (s := s.advance 2) hu
  | pop rd => exact State.finish_storesAtMost h fun u hu => .inl (State.pop_ok_mem (s := s.advance 2) hu)

/-- A step leaves memory as it was, or stores to the store address of the instruction it fetched. -/
theorem step_storesAtMost {s t : State} (h : step s = .next t) :
    t.mem = s.mem ∨ ∃ i u, s.fetchInstr = .ok (.instr i, u) ∧ StoresAtMost (i.storeAddress s) s t := by
  cases hs : s.status with
  | halted r => rw [step_halted hs] at h; cases h
  | running =>
    obtain ⟨e, -, hstep⟩ | ⟨op, u, -, hstep⟩ | ⟨i, u, hfetch, hstep⟩ := step_cases hs <;> rw [hstep] at h
    · cases h; exact .inl rfl
    · obtain ⟨-, e⟩ | ⟨-, e⟩ := s.unknownOpcode_cases op <;> rw [e] at h <;> cases h <;> exact .inl rfl
    · exact .inr ⟨i, u, hfetch, exec_storesAtMost h⟩

/-- A word that changes is the one word stored to. -/
theorem StoresAtMost.eq_some_of_wordAt_ne {stored : Option Word} {s t : State} {a : Word}
    (h : StoresAtMost stored s t) (hne : t.wordAt a ≠ s.wordAt a) : stored = some a := by
  obtain hmem | ⟨b, v, hb, -, hmem⟩ := h
  · exact absurd (State.wordAt_of_mem_eq hmem a) hne
  · by_cases hab : a = b
    · rw [hb, hab]
    · exact absurd ((keepsMemory_of_mem_write hmem).2 a (mt List.mem_singleton.1 hab)) hne

/-- Settles O9: a step that changes a word is no fault and no unknown opcode, and the instruction it fetched stores
to that word. -/
theorem wordsKeptUnlessStored : Obligations.WordsKeptUnlessStored := by
  intro s t a h hne
  obtain hmem | ⟨i, u, hfetch, hst⟩ := step_storesAtMost h
  · exact absurd (State.wordAt_of_mem_eq hmem a) hne
  · exact ⟨i, u, hfetch, hst.eq_some_of_wordAt_ne hne⟩

end Sys2Proof.Machine
end

section
/-! PROOFS. What the decoder reads: the opcode word selects the mnemonic, and the mnemonic's reader takes as many
words as its format has (30_encoding.md R60, R61), naming registers modulo 12 (R65). -/

namespace Sys2Proof

/-- The register a word names has the word modulo 12 as its index (R65). -/
@[simp] theorem Reg.index_ofWord_toNat (w : Word) : (Reg.ofWord w).index.toNat = w.toNat % 12 := by
  have hlt : w.toNat % 12 < 12 := Nat.mod_lt _ (by decide)
  unfold Reg.ofWord
  generalize w.toNat % 12 = n at hlt ⊢
  interval_cases n <;> rfl

/-- Under an injective map the word of a mnemonic selects that mnemonic. -/
theorem OpcodeMap.find?_word {m : OpcodeMap} (hm : m.Injective) (k : Op) : m.find? (m.word k) = some k := by
  cases h : m.find? (m.word k) with
  | none => exact absurd rfl (OpcodeMap.word_ne_of_find?_none h k)
  | some j => rw [OpcodeMap.word_inj hm (OpcodeMap.word_of_find? h)]

/-! ### The readers -/

/-- A reader of one operand takes exactly one word. -/
theorem Reader.run_one_operand {f : Word → Instr} {ws rest : List Word} {i : Instr}
    (h : (Reader.need fun u => .done (f u)).run ws = some (i, rest)) : ∃ u, ws = u :: rest ∧ i = f u := by
  match ws with
  | [] => cases h
  | u :: _ => cases h; exact ⟨u, rfl, rfl⟩

/-- A reader of two operands takes exactly two words. -/
theorem Reader.run_two_operands {f : Word → Word → Instr} {ws rest : List Word} {i : Instr}
    (h : (Reader.need fun u => .need fun w => .done (f u w)).run ws = some (i, rest)) :
    ∃ u w, ws = u :: w :: rest ∧ i = f u w := by
  match ws with
  | [] => cases h
  | u :: ws =>
    obtain ⟨w, rfl, rfl⟩ := Reader.run_one_operand (f := f u) h
    exact ⟨u, w, rfl, rfl⟩

/-- The reader of a mnemonic makes an instruction of that mnemonic, and takes the instruction's words but the
opcode word. -/
theorem Op.reader_run {k : Op} {ws rest : List Word} {i : Instr} (h : k.reader.run ws = some (i, rest)) :
    i.op = k ∧ i.length = k.format.length + 1 ∧ ws.length = k.format.length + rest.length := by
  cases k
  case pushLit | pushReg | pop =>
    obtain ⟨u, rfl, rfl⟩ := Reader.run_one_operand h
    exact ⟨rfl, rfl, Nat.add_comm rest.length 1⟩
  case movLitReg | movRegReg | movRegMem | movMemReg | addRegReg | jumpNotEq =>
    obtain ⟨u, w, rfl, rfl⟩ := Reader.run_two_operands h
    exact ⟨rfl, rfl, Nat.add_comm rest.length 2⟩

/-! ### The decoder -/

/-- A word list decodes exactly when its first word selects a mnemonic whose reader finds its operand words. -/
theorem decode_cons_eq_instr_iff {m : OpcodeMap} {w : Word} {ws rest : List Word} {i : Instr} :
    decode m (w :: ws) = .instr i rest ↔ ∃ k, m.find? w = some k ∧ k.reader.run ws = some (i, rest) := by
  cases hf : m.find? w with
  | none => simp [decode, hf]
  | some k =>
    cases hr : k.reader.run ws with
    | none => simp [decode, hf, hr]
    | some p => simp [decode, hf, hr, Prod.ext_iff]

/-- A mnemonic's word and the words its reader takes decode to the instruction the reader makes. -/
theorem decode_word_cons {m : OpcodeMap} (hm : m.Injective) {k : Op} {ws rest : List Word} {i : Instr}
    (h : k.reader.run ws = some (i, rest)) : decode m (m.word k :: ws) = .instr i rest :=
  decode_cons_eq_instr_iff.2 ⟨k, OpcodeMap.find?_word hm k, h⟩

/-- Settles O4: both lists begin with the one word that selects the mnemonic, so one reader reads both. -/
theorem opcodeFixesArity : Obligations.OpcodeFixesArity := by
  intro m w ws1 ws2 rest1 rest2 i1 i2 h1 h2
  obtain ⟨k, hk, hrun1⟩ := decode_cons_eq_instr_iff.1 h1
  obtain ⟨j, hj, hrun2⟩ := decode_cons_eq_instr_iff.1 h2
  obtain rfl : k = j := Option.some.inj (hk.symm.trans hj)
  obtain ⟨hop1, hlen1, hws1⟩ := Op.reader_run hrun1
  obtain ⟨hop2, -, hws2⟩ := Op.reader_run hrun2
  refine ⟨hop1.trans hop2.symm, ?_, ?_⟩ <;> rw [List.length_cons] <;> omega

/-- Settles O6: each of the six readers names the register of its operand word, whatever the word. -/
theorem registerOperandsReduceModulo12 : Obligations.RegisterOperandsReduceModulo12 := by
  refine ⟨Reg.index_ofWord_toNat, rfl, rfl, rfl, fun m u w rest hm => ⟨?_, ?_, ?_, ?_, ?_, ?_⟩⟩
  · exact decode_word_cons hm (k := .movLitReg) rfl
  · exact decode_word_cons hm (k := .movRegReg) rfl
  · exact decode_word_cons hm (k := .movRegMem) rfl
  · exact decode_word_cons hm (k := .movMemReg) rfl
  · exact decode_word_cons hm (k := .pushReg) rfl
  · exact decode_word_cons hm (k := .pop) rfl

end Sys2Proof
end

section
/-! PROOFS. What a fetch, and several in a row, answer and leave: the words from ip on, and the state with ip moved
past them (40_execution_cycle.md R80). -/

namespace Sys2Proof.Machine

theorem State.fetch_of_lt {s : State} (h : (s.readReg .ip).toNat < s.mem.size) :
    s.fetch = .ok (s.wordAt (s.readReg .ip), s.advance 1) := by
  obtain ⟨-, e⟩ | ⟨hle, -⟩ := s.fetch_cases
  · exact e
  · omega

theorem State.fetch_of_le {s : State} (h : s.mem.size ≤ (s.readReg .ip).toNat) :
    s.fetch = .error ⟨.outOfBoundsMemoryAccess, s.readReg .ip⟩ := by
  obtain ⟨hlt, -⟩ | ⟨-, e⟩ := s.fetch_cases
  · omega
  · exact e

/-- Moving ip touches no other register, neither the latch nor the parameters. -/
theorem State.keepsOthers_advance (s : State) (n : Nat) : KeepsOthers s (s.advance n) [] :=
  ⟨fun _ hq _ => s.advance_readReg n hq, rfl, rfl⟩

theorem State.keepsMemory_advance (s : State) (n : Nat) : KeepsMemory s (s.advance n) [] :=
  ⟨rfl, fun b _ => s.advance_wordAt n b⟩

/-- The word at ip and the `k` words from the next address on are the `k + 1` words from ip on. -/
theorem State.wordAt_cons_advance_wordAt (s : State) (k : Nat) :
    (s.wordAt (s.readReg .ip) :: (List.range k).map fun j =>
        (s.advance 1).wordAt ((s.advance 1).readReg .ip + BitVec.ofNat 16 j)) =
      (List.range (k + 1)).map fun j => s.wordAt (s.readReg .ip + BitVec.ofNat 16 j) := by
  simp [List.range_succ_eq_map, Function.comp_def, BitVec.add_assoc, ← BitVec.ofNat_add, Nat.add_comm]

/-- Fetches inside the memory all complete. The last may leave ip at N, and for N = 65536 that is 0 (R89). -/
theorem fetchTimes_of_le (k : Nat) (s : State) (h : (s.readReg .ip).toNat + k ≤ s.mem.size) :
    fetchTimes k s =
      .ok ((List.range k).map fun j => s.wordAt (s.readReg .ip + BitVec.ofNat 16 j), s.advance k) := by
  induction k generalizing s with
  | zero => rw [s.advance_zero]; rfl
  | succ k ih =>
    have hfetch : s.fetch = .ok (s.wordAt (s.readReg .ip), s.advance 1) := State.fetch_of_lt (by omega)
    have hip : ((s.advance 1).readReg .ip).toNat ≤ (s.readReg .ip).toNat + 1 := by
      rw [s.advance_ip, BitVec.toNat_add]
      exact Nat.mod_le _ _
    have hrest := ih (s.advance 1) (by rw [s.advance_mem]; omega)
    rw [s.advance_advance, Nat.add_comm 1 k] at hrest
    simp only [fetchTimes, hfetch, hrest, s.wordAt_cons_advance_wordAt]

/-- Settles O12: one fetch is `advance 1` or raises, and `k` fetches inside the memory are `advance k`. -/
theorem fetchIsPostIncrement : Obligations.FetchIsPostIncrement := by
  refine ⟨fun s h => State.fetch_of_le h, fun s h => ?_, fun k s h => ?_⟩
  · exact ⟨_, State.fetch_of_lt h, s.advance_ip 1, s.keepsOthers_advance 1, s.keepsMemory_advance 1⟩
  · exact ⟨_, fetchTimes_of_le k s h, s.advance_ip k, s.keepsOthers_advance k, s.keepsMemory_advance k⟩

end Sys2Proof.Machine
end

section
/-! PROOFS. Encoding and decoding: the decoder undoes the encoder under every injective map, and what decodes was
encoded but for the register words, which are read modulo 12 (30_encoding.md R60 to R69). -/

namespace Sys2Proof

/-! ### The round trip -/

/-- The reader of an instruction's mnemonic reads the instruction's own operand words back. -/
theorem Op.reader_run_operands (i : Instr) (rest : List Word) :
    i.op.reader.run (i.operands ++ rest) = some (i, rest) := by
  cases i <;> simp [Instr.op, Instr.operands, Op.reader, Reader.run]

/-- Settles O2: an injective map selects the instruction's mnemonic, whose reader undoes the operand words. -/
theorem decodeOfEncode : Obligations.DecodeOfEncode := by
  intro m i rest hm
  exact decode_word_cons hm (Op.reader_run_operands i rest)

/-- Settles O1: the nine rows of the default table, each evaluated. -/
theorem defaultWordsDecode : Obligations.DefaultWordsDecode := by
  refine ⟨?_, ?_, ?_, ?_, ?_, ?_, ?_, ?_, ?_⟩ <;> decide

/-! ### The words that were read -/

/-- Word by word along a format, the encoder's word is the word read, modulo 12 at a register operand. -/
def OperandsAgree (used canonical : List Word) (format : List OperandKind) : Prop :=
  ∀ (n : Nat) (u c : Word) (kind : OperandKind),
    used[n]? = some u → canonical[n]? = some c → format[n]? = some kind →
    if kind = .register then c.toNat = u.toNat % 12 else u = c

theorem operandsAgree_nil : OperandsAgree [] [] [] := by
  intro n u c kind hu
  simp at hu

theorem operandsAgree_cons_register {us cs : List Word} {fs : List OperandKind} (u : Word)
    (h : OperandsAgree us cs fs) : OperandsAgree (u :: us) ((Reg.ofWord u).index :: cs) (.register :: fs) := by
  intro n v c kind hv hc hk
  cases n with
  | zero => cases hv; cases hc; cases hk; exact Reg.index_ofWord_toNat u
  | succ n => exact h n v c kind hv hc hk

theorem operandsAgree_cons_same {us cs : List Word} {fs : List OperandKind} {kind : OperandKind}
    (hkind : kind ≠ .register) (u : Word) (h : OperandsAgree us cs fs) :
    OperandsAgree (u :: us) (u :: cs) (kind :: fs) := by
  intro n v c kind' hv hc hk
  cases n with
  | zero => cases hv; cases hc; cases hk; rw [if_neg hkind]
  | succ n => exact h n v c kind' hv hc hk

/-- The words a mnemonic's reader takes agree with the operand words of the instruction it makes. -/
theorem Op.reader_run_agree {k : Op} {ws rest : List Word} {i : Instr} (h : k.reader.run ws = some (i, rest)) :
    ∃ used, ws = used ++ rest ∧ OperandsAgree used i.operands k.format := by
  cases k
  case pushLit =>
    obtain ⟨u, rfl, rfl⟩ := Reader.run_one_operand h
    exact ⟨[u], rfl, operandsAgree_cons_same (by decide) u operandsAgree_nil⟩
  case pushReg | pop =>
    obtain ⟨u, rfl, rfl⟩ := Reader.run_one_operand h
    exact ⟨[u], rfl, operandsAgree_cons_register u operandsAgree_nil⟩
  case movLitReg | movMemReg =>
    obtain ⟨u, w, rfl, rfl⟩ := Reader.run_two_operands h
    exact ⟨[u, w], rfl, operandsAgree_cons_same (by decide) u (operandsAgree_cons_register w operandsAgree_nil)⟩
  case movRegReg =>
    obtain ⟨u, w, rfl, rfl⟩ := Reader.run_two_operands h
    exact ⟨[u, w], rfl, operandsAgree_cons_register u (operandsAgree_cons_register w operandsAgree_nil)⟩
  case movRegMem =>
    obtain ⟨u, w, rfl, rfl⟩ := Reader.run_two_operands h
    exact ⟨[u, w], rfl, operandsAgree_cons_register u (operandsAgree_cons_same (by decide) w operandsAgree_nil)⟩
  case addRegReg | jumpNotEq =>
    obtain ⟨u, w, rfl, rfl⟩ := Reader.run_two_operands h
    exact ⟨[u, w], rfl,
      operandsAgree_cons_same (by decide) u (operandsAgree_cons_same (by decide) w operandsAgree_nil)⟩

theorem Instr.operands_length (i : Instr) : i.operands.length = i.op.format.length := by
  cases i <;> rfl

/-- Settles O3: the first word selects the mnemonic, and its reader's words agree with the encoder's. -/
theorem decodedWordsAreEncoded : Obligations.DecodedWordsAreEncoded := by
  intro m ws i rest h
  cases ws with
  | nil => cases h
  | cons w ws =>
    obtain ⟨k, hfind, hrun⟩ := decode_cons_eq_instr_iff.1 h
    obtain ⟨rfl, hlen, hws⟩ := Op.reader_run hrun
    obtain ⟨used, rfl, hagree⟩ := Op.reader_run_agree hrun
    have hused : used.length = i.op.format.length := by
      rw [List.length_append] at hws
      omega
    refine ⟨used, i.operands, ?_, rfl, ?_, ?_, hused.symm, hagree⟩
    · rw [OpcodeMap.word_of_find? hfind, List.cons_append]
    · rw [hlen, hused]
    · rw [i.operands_length, hused]

/-! ### Unknown opcodes -/

/-- A word selects a mnemonic exactly when it is the mnemonic's word. -/
theorem OpcodeMap.find?_eq_some_iff {m : OpcodeMap} (hm : m.Injective) {w : Word} {k : Op} :
    m.find? w = some k ↔ m.word k = w :=
  ⟨OpcodeMap.word_of_find?, fun h => h ▸ OpcodeMap.find?_word hm k⟩

/-- A word selects nothing exactly when it is no mnemonic's word, under any map. -/
theorem OpcodeMap.find?_eq_none_iff {m : OpcodeMap} {w : Word} : m.find? w = none ↔ ∀ k, m.word k ≠ w := by
  refine ⟨OpcodeMap.word_ne_of_find?_none, fun h => ?_⟩
  cases hf : m.find? w with
  | none => rfl
  | some k => exact absurd (OpcodeMap.word_of_find? hf) (h k)

/-- A list of words decodes as unknown exactly when its first word selects nothing. -/
theorem decode_cons_eq_unknown_iff {m : OpcodeMap} {w : Word} {rest : List Word} :
    decode m (w :: rest) = .unknownOpcode w ↔ m.find? w = none := by
  cases hf : m.find? w with
  | none => simp [decode, hf]
  | some k => cases hr : k.reader.run rest <;> simp [decode, hf, hr]

/-- Settles O5: the dispatcher finds exactly the map's nine words. -/
theorem unknownExactlyOutsideMap : Obligations.UnknownExactlyOutsideMap := by
  intro m hm w rest
  exact ⟨decode_cons_eq_unknown_iff.trans OpcodeMap.find?_eq_none_iff, fun _ => OpcodeMap.find?_eq_some_iff hm⟩

end Sys2Proof
end

section
/-! PROOFS. The canonical form of memory is faithful to what it reads (log entry 4), and what `createMemory` makes
(70_reset_and_hazards.md R191). -/

namespace Sys2Proof.Machine

/-! ### Canonical cells that read alike -/

theorem cellsWf_cons_iff {last lo a : Nat} {v : Word} {rest : List Cell} :
    cellsWf last lo ((a, v) :: rest) = true ↔
      lo ≤ a ∧ a ≤ last ∧ v ≠ Memory.blank ∧ cellsWf last (a + 1) rest = true := by
  simp [cellsWf, and_assoc]

theorem readCells_cons_same (a : Nat) (v : Word) (rest : List Cell) : readCells ((a, v) :: rest) a = v :=
  if_pos rfl

theorem readCells_cons_other {a b : Nat} (v : Word) (rest : List Cell) (h : a ≠ b) :
    readCells ((a, v) :: rest) b = readCells rest b :=
  if_neg h

/-- Of two canonical lists that read alike neither begins below the other, where the other reads as blank. -/
theorem first_le_of_readCells_eq {last lo a b : Nat} {u v : Word} {xs ys : List Cell}
    (hx : cellsWf last lo ((a, u) :: xs) = true) (hy : cellsWf last lo ((b, v) :: ys) = true)
    (h : ∀ c ≤ last, readCells ((a, u) :: xs) c = readCells ((b, v) :: ys) c) : b ≤ a := by
  obtain ⟨-, ha, hu, -⟩ := cellsWf_cons_iff.1 hx
  obtain ⟨-, hb, hv, hys⟩ := cellsWf_cons_iff.1 hy
  by_contra hlt
  refine hu ?_
  have hy' : cellsWf last b ((b, v) :: ys) = true := cellsWf_cons_iff.2 ⟨Nat.le_refl b, hb, hv, hys⟩
  rw [← readCells_cons_same a u xs, h a ha, readCells_below (Nat.lt_of_not_le hlt) hy']

/-- Canonical lists that read alike at every address up to the last are equal. -/
theorem cells_eq_of_readCells_eq {last : Nat} {xs ys : List Cell} {lo : Nat} (hx : cellsWf last lo xs = true)
    (hy : cellsWf last lo ys = true) (h : ∀ c ≤ last, readCells xs c = readCells ys c) : xs = ys := by
  induction xs generalizing ys lo with
  | nil =>
    cases ys with
    | nil => rfl
    | cons y ys =>
      obtain ⟨-, hb, hv, -⟩ := cellsWf_cons_iff.1 hy
      exact absurd ((readCells_cons_same _ _ _).symm.trans (h _ hb).symm) hv
  | cons x xs ih =>
    obtain ⟨a, u⟩ := x
    obtain ⟨-, ha, hu, hxs⟩ := cellsWf_cons_iff.1 hx
    cases ys with
    | nil => exact absurd ((readCells_cons_same _ _ _).symm.trans (h _ ha)) hu
    | cons y ys =>
      obtain ⟨b, v⟩ := y
      obtain ⟨-, -, -, hys⟩ := cellsWf_cons_iff.1 hy
      obtain rfl : a = b :=
        Nat.le_antisymm (first_le_of_readCells_eq hy hx fun c hc => (h c hc).symm)
          (first_le_of_readCells_eq hx hy h)
      obtain rfl : u = v := by simpa [readCells] using h a ha
      refine congrArg _ (ih hxs hys fun c hc => ?_)
      rcases Nat.lt_or_ge a c with hac | hca
      · rw [← readCells_cons_other u xs hac.ne, h c hc, readCells_cons_other u ys hac.ne]
      · rw [readCells_below (Nat.lt_succ_of_le hca) hxs, readCells_below (Nat.lt_succ_of_le hca) hys]

/-- Settles O8: every address up to the last is a word, so the cells agree wherever a cell can stand. -/
theorem equalReadsAreEqualMemories : Obligations.EqualReadsAreEqualMemories := by
  rintro ⟨last, xs⟩ ⟨_, ys⟩ hx hy rfl hread
  refine congrArg _ (cells_eq_of_readCells_eq hx hy fun c hc => ?_)
  have hlt : c < 2 ^ 16 := Nat.lt_of_le_of_lt hc last.isLt
  have hc' := hread (BitVec.ofNat 16 c)
  unfold Memory.read at hc'
  rwa [BitVec.toNat_ofNat, Nat.mod_eq_of_lt hlt] at hc'

/-! ### Created memory -/

theorem createMemory_of_mem_range {size : Nat} (hlo : 1 ≤ size) (hhi : size ≤ 65536) :
    createMemory size = some { last := BitVec.ofNat 16 (size - 1), cells := [] } :=
  if_pos ⟨hlo, hhi⟩

/-- A memory that is created is canonical, blank and of the size asked for, which is one of 1 to 65536. -/
theorem createMemory_some {size : Nat} {m : Memory} (h : createMemory size = some m) :
    1 ≤ size ∧ size ≤ 65536 ∧ m.size = size ∧ m.wf = true ∧ ∀ a, m.read a = 0 := by
  unfold createMemory at h
  split at h
  · next hsize =>
    cases h
    refine ⟨hsize.1, hsize.2, ?_, rfl, fun _ => rfl⟩
    rw [Memory.size, BitVec.toNat_ofNat]
    omega
  · cases h

/-- Settles O41: the sizes 1 to 65536 are those that 16 bits hold less one. -/
theorem createdMemoryIsZeroFilled : Obligations.CreatedMemoryIsZeroFilled := by
  intro size
  refine ⟨fun hlo hhi => ?_, fun hsize => if_neg (by omega)⟩
  obtain ⟨-, -, hm⟩ := createMemory_some (createMemory_of_mem_range hlo hhi)
  exact ⟨_, createMemory_of_mem_range hlo hhi, hm⟩

end Sys2Proof.Machine
end

section
/-! PROOFS. The fetch unit on memory is the reader on the words from ip, and a RUNNING core's step is what the fetch
unit finds (40_execution_cycle.md R83 to R85). -/

namespace Sys2Proof.Machine

/-! ### The words in memory -/

/-- Words stand in memory whatever the registers hold. -/
theorem State.HoldsWords.of_mem_eq {s t : State} (hmem : t.mem = s.mem) {a : Word} {ws : List Word}
    (h : t.HoldsWords a ws) : s.HoldsWords a ws := by
  induction ws generalizing a with
  | nil => trivial
  | cons w ws ih =>
    obtain ⟨ha, hw, hrest⟩ := h
    exact ⟨hmem ▸ ha, (State.wordAt_of_mem_eq hmem a).symm.trans hw, ih hrest⟩

theorem State.advance_one_ip (s : State) : (s.advance 1).readReg .ip = s.readReg .ip + 1 := s.advance_ip 1

/-- What stands from the next address on is what stands at ip after a fetch. -/
theorem State.holdsWords_advance_one {s : State} {ws : List Word} :
    (s.advance 1).HoldsWords ((s.advance 1).readReg .ip) ws ↔ s.HoldsWords (s.readReg .ip + 1) ws := by
  rw [s.advance_one_ip]
  exact ⟨State.HoldsWords.of_mem_eq (s.advance_mem 1), State.HoldsWords.of_mem_eq (s.advance_mem 1).symm⟩

theorem State.advance_one_advance (s : State) (n : Nat) : (s.advance 1).advance n = s.advance (n + 1) := by
  rw [s.advance_advance, Nat.add_comm]

/-! ### Operand reads -/

theorem State.fetchOperands_need_of_lt {s : State} (next : Word → Reader) (h : (s.readReg .ip).toNat < s.mem.size) :
    s.fetchOperands (.need next) = (s.advance 1).fetchOperands (next (s.wordAt (s.readReg .ip))) := by
  rw [State.fetchOperands, State.fetch_of_lt h]

theorem State.fetchOperands_need_of_le {s : State} (next : Word → Reader) (h : s.mem.size ≤ (s.readReg .ip).toNat) :
    s.fetchOperands (.need next) = .error ⟨.outOfBoundsMemoryAccess, s.readReg .ip⟩ := by
  rw [State.fetchOperands, State.fetch_of_le h]

/-- Operand reads take the words at ip that the reader takes. -/
theorem State.fetchOperands_reads {r : Reader} {s t : State} {i : Instr} (h : s.fetchOperands r = .ok (i, t)) :
    ∃ ws, r.run ws = some (i, []) ∧ s.HoldsWords (s.readReg .ip) ws ∧ t = s.advance ws.length := by
  induction r generalizing s with
  | done j => cases h; exact ⟨[], rfl, trivial, (State.advance_zero _).symm⟩
  | need next ih =>
    rcases Nat.lt_or_ge (s.readReg .ip).toNat s.mem.size with hlt | hle
    · rw [State.fetchOperands_need_of_lt next hlt] at h
      obtain ⟨ws, hrun, hwords, rfl⟩ := ih _ h
      exact ⟨s.wordAt (s.readReg .ip) :: ws, hrun, ⟨hlt, rfl, State.holdsWords_advance_one.1 hwords⟩,
        s.advance_one_advance _⟩
    · rw [State.fetchOperands_need_of_le next hle] at h
      cases h

/-- Where the words that the reader takes stand at ip, the operand reads complete. -/
theorem State.fetchOperands_of_holdsWords {r : Reader} {s : State} {ws : List Word} {i : Instr}
    (hrun : r.run ws = some (i, [])) (hwords : s.HoldsWords (s.readReg .ip) ws) :
    s.fetchOperands r = .ok (i, s.advance ws.length) := by
  induction r generalizing s ws with
  | done j => cases hrun; rw [List.length_nil, s.advance_zero]; rfl
  | need next ih =>
    cases ws with
    | nil => cases hrun
    | cons w ws =>
      obtain ⟨hlt, rfl, hrest⟩ := hwords
      rw [State.fetchOperands_need_of_lt next hlt, ih _ hrun (State.holdsWords_advance_one.2 hrest),
        s.advance_one_advance, List.length_cons]

/-! ### The fetch unit -/

theorem State.fetchInstr_of_le {s : State} (h : s.mem.size ≤ (s.readReg .ip).toNat) :
    s.fetchInstr = .error ⟨.outOfBoundsMemoryAccess, s.readReg .ip⟩ := by
  rw [State.fetchInstr, State.fetch_of_le h]

theorem State.fetchInstr_of_unknown {s : State} (h : (s.readReg .ip).toNat < s.mem.size)
    (hfind : s.config.opcodes.find? (s.wordAt (s.readReg .ip)) = none) :
    s.fetchInstr = .ok (.unknown (s.wordAt (s.readReg .ip)), s.advance 1) := by
  rw [State.fetchInstr, State.fetch_of_lt h]
  dsimp only
  rw [hfind]

/-- At an opcode the fetch unit is the operand reads of the mnemonic. -/
theorem State.fetchInstr_of_opcode {s : State} {k : Op} (h : (s.readReg .ip).toNat < s.mem.size)
    (hfind : s.config.opcodes.find? (s.wordAt (s.readReg .ip)) = some k) :
    s.fetchInstr = ((s.advance 1).fetchOperands k.reader).map fun p => (.instr p.1, p.2) := by
  rw [State.fetchInstr, State.fetch_of_lt h]
  dsimp only
  rw [hfind]
  dsimp only
  cases (s.advance 1).fetchOperands k.reader <;> rfl

/-- The fetch unit answers `i` with the state `t` exactly when words that decode to `i` stand at ip, and `t` is then
past them. -/
theorem State.fetchInstr_eq_instr_iff {s t : State} {i : Instr} :
    s.fetchInstr = .ok (.instr i, t) ↔
      ∃ ws, s.HoldsWords (s.readReg .ip) ws ∧ decode s.config.opcodes ws = .instr i [] ∧ t = s.advance ws.length := by
  constructor
  · intro h
    obtain ⟨-, e⟩ | ⟨-, -, e⟩ | ⟨k, hip, hfind, ⟨e', -, e⟩ | ⟨j, u, hops, e⟩⟩ := s.fetchInstr_cases <;>
      rw [e] at h <;> cases h
    obtain ⟨ws, hrun, hwords, rfl⟩ := State.fetchOperands_reads hops
    exact ⟨s.wordAt (s.readReg .ip) :: ws, ⟨hip, rfl, State.holdsWords_advance_one.1 hwords⟩,
      decode_cons_eq_instr_iff.2 ⟨k, hfind, hrun⟩, s.advance_one_advance _⟩
  · rintro ⟨ws, hwords, hdec, rfl⟩
    cases ws with
    | nil => cases hdec
    | cons w ws =>
      obtain ⟨hip, rfl, hrest⟩ := hwords
      obtain ⟨k, hfind, hrun⟩ := decode_cons_eq_instr_iff.1 hdec
      have hops := State.fetchOperands_of_holdsWords hrun (State.holdsWords_advance_one.2 hrest)
      rw [State.fetchInstr_of_opcode hip hfind, hops, s.advance_one_advance]
      rfl

/-- Words that decode to an instruction with none left are as many as its length. -/
theorem length_of_decode_eq_instr_nil {m : OpcodeMap} {ws : List Word} {i : Instr} (h : decode m ws = .instr i []) :
    ws.length = i.length := by
  cases ws with
  | nil => cases h
  | cons w ws =>
    obtain ⟨k, -, hrun⟩ := decode_cons_eq_instr_iff.1 h
    obtain ⟨-, hlen, hws⟩ := Op.reader_run hrun
    rw [List.length_cons, hlen, hws, List.length_nil, Nat.add_zero]

/-- Settles O13: the fetch unit advances past the instruction's words and does nothing else. -/
theorem actionBeginsPastOperands : Obligations.ActionBeginsPastOperands := by
  intro s t i h
  obtain ⟨ws, hwords, hdec, rfl⟩ := State.fetchInstr_eq_instr_iff.1 h
  have hlen := length_of_decode_eq_instr_nil hdec
  refine ⟨?_, s.keepsOthers_advance _, s.keepsMemory_advance _, ws, hlen, hwords, hdec⟩
  rw [s.advance_ip, hlen]

/-! ### The step by what is fetched -/

theorem step_of_fetchInstr_error {s : State} {e : Raise} (hr : s.Running) (h : s.fetchInstr = .error e) :
    step s = .next (s.takeFault e) := by
  rw [step, hr]
  dsimp only
  rw [h]
  rfl

theorem step_of_fetchInstr_unknown {s t : State} {op : Word} (hr : s.Running)
    (h : s.fetchInstr = .ok (.unknown op, t)) : step s = s.unknownOpcode op := by
  rw [step, hr]
  dsimp only
  rw [h]

theorem step_of_fetchInstr_instr {s t : State} {i : Instr} (hr : s.Running)
    (h : s.fetchInstr = .ok (.instr i, t)) : step s = exec i s := by
  rw [step, hr]
  dsimp only
  rw [h]

/-- Settles O14: the words at ip are what the fetch unit finds. -/
theorem stepRunsDecodedInstruction : Obligations.StepRunsDecodedInstruction := by
  intro s i ws hr hwords hdec
  exact step_of_fetchInstr_instr hr (State.fetchInstr_eq_instr_iff.2 ⟨ws, hwords, hdec, rfl⟩)

/-- Settles O15: the fetch unit raises at ip, and the fault is taken in the state before the step. -/
theorem opcodeFetchOutOfBoundsHalts : Obligations.OpcodeFetchOutOfBoundsHalts := by
  intro s hr hip
  exact step_of_fetchInstr_error hr (State.fetchInstr_of_le hip)

/-- Settles O16: a word that selects nothing goes to the dispatcher's arm for unknown opcodes. -/
theorem unknownOpcodeHaltsOrIsSkipped : Obligations.UnknownOpcodeHaltsOrIsSkipped := by
  intro s hr hip hword
  rw [step_of_fetchInstr_unknown hr (State.fetchInstr_of_unknown hip (OpcodeMap.find?_eq_none_iff.2 hword))]
  obtain ⟨hpol, e⟩ | ⟨hpol, e⟩ := s.unknownOpcode_cases (s.wordAt (s.readReg .ip)) <;> rw [hpol, e]
  · exact ⟨fun _ => rfl, nofun⟩
  · exact ⟨nofun, fun _ => ⟨_, rfl, s.advance_ip 1, s.keepsOthers_advance 1, s.keepsMemory_advance 1⟩⟩

/-! ### Operand fetches of an instruction's step -/

/-- A reader's last operand read, of the word at `a`, raises where `a` is no address and else makes the instruction. -/
theorem State.fetchOperands_last (make : Word → Instr) {s : State} {a : Word} (ha : s.readReg .ip = a) :
    s.fetchOperands (.need fun u => .done (make u)) =
      if s.mem.size ≤ a.toNat then .error ⟨.outOfBoundsMemoryAccess, a⟩ else .ok (make (s.wordAt a), s.advance 1) := by
  subst ha
  split
  · next hle => exact State.fetchOperands_need_of_le _ hle
  · next hlt => exact State.fetchOperands_need_of_lt _ (Nat.lt_of_not_le hlt)

/-- The two operand reads of a reader that begins at `a`: each raises where its word is at no address. -/
theorem State.fetchOperands_two (make : Word → Word → Instr) {s : State} {a : Word} (ha : s.readReg .ip = a) :
    s.fetchOperands (.need fun u => .need fun w => .done (make u w)) =
      if s.mem.size ≤ a.toNat then .error ⟨.outOfBoundsMemoryAccess, a⟩
      else if s.mem.size ≤ (a + 1).toNat then .error ⟨.outOfBoundsMemoryAccess, a + 1⟩
      else .ok (make (s.wordAt a) (s.wordAt (a + 1)), s.advance 2) := by
  subst ha
  split
  · next hle => exact State.fetchOperands_need_of_le _ hle
  · next hlt =>
    rw [State.fetchOperands_need_of_lt _ (Nat.lt_of_not_le hlt), State.fetchOperands_last _ s.advance_one_ip,
      s.advance_one_advance]
    rfl

/-- A RUNNING core's step at the opcode of `k`, by what the operand reads answer. -/
theorem step_at_opcode {s : State} {k : Op} (hr : s.Running) (hm : s.config.opcodes.Injective)
    (hip : (s.readReg .ip).toNat < s.mem.size) (hword : s.wordAt (s.readReg .ip) = s.config.opcodes.word k) :
    (∀ e, (s.advance 1).fetchOperands k.reader = .error e → step s = .next (s.takeFault e)) ∧
    ∀ i t, (s.advance 1).fetchOperands k.reader = .ok (i, t) → step s = exec i s := by
  have hfind : s.config.opcodes.find? (s.wordAt (s.readReg .ip)) = some k := hword ▸ OpcodeMap.find?_word hm k
  have hfetch := State.fetchInstr_of_opcode hip hfind
  refine ⟨fun e he => step_of_fetchInstr_error hr ?_, fun i t hi => step_of_fetchInstr_instr hr (t := t) ?_⟩
  · rw [hfetch, he]; rfl
  · rw [hfetch, hi]; rfl

/-- The fetch part of a two-word instruction's rule, from its reader. -/
theorem fetchesOneOperand_of_reader {k : Op} {make : Word → Instr}
    (hk : k.reader = .need fun u => .done (make u)) : FetchesOneOperand k make := by
  intro s hr hm hip hword
  obtain ⟨hraise, hmake⟩ := step_at_opcode hr hm hip hword
  rw [hk, State.fetchOperands_last make s.advance_one_ip] at hraise hmake
  split
  · next h1 => exact hraise _ (if_pos h1)
  · next h1 => exact hmake _ _ (if_neg h1)

/-- The fetch part of a three-word instruction's rule, from its reader. -/
theorem fetchesTwoOperands_of_reader {k : Op} {make : Word → Word → Instr}
    (hk : k.reader = .need fun u => .need fun w => .done (make u w)) : FetchesTwoOperands k make := by
  intro s hr hm hip hword
  obtain ⟨hraise, hmake⟩ := step_at_opcode hr hm hip hword
  have hnext : s.readReg .ip + 2 = s.readReg .ip + 1 + 1 := (BitVec.add_assoc _ 1 1).symm
  rw [hk, State.fetchOperands_two make s.advance_one_ip] at hraise hmake
  rw [hnext]
  split
  · next h1 => exact hraise _ (if_pos h1)
  · next h1 =>
    rw [s.advance_mem, if_neg h1] at hraise hmake
    split
    · next h2 => exact hraise _ (if_pos h2)
    · next h2 => exact hmake _ _ (if_neg h2)

end Sys2Proof.Machine
end

section
/-! PROOFS. The nine instructions' rules: what each does to registers, latch, parameters and memory, and when it halts
(41_data_movement.md to 44_stack.md). -/

namespace Sys2Proof.Machine

/-! ### Frames of the state operations -/

theorem KeepsOthers.trans {s t u : State} {ps qs : List Reg} (h1 : KeepsOthers s t ps) (h2 : KeepsOthers t u qs) :
    KeepsOthers s u (ps ++ qs) := by
  obtain ⟨hreg1, hstatus1, hconfig1⟩ := h1
  obtain ⟨hreg2, hstatus2, hconfig2⟩ := h2
  refine ⟨fun q hq hmem => ?_, hstatus2.trans hstatus1, hconfig2.trans hconfig1⟩
  rw [List.mem_append, not_or] at hmem
  exact (hreg2 q hq hmem.2).trans (hreg1 q hq hmem.1)

theorem KeepsMemory.trans {s t u : State} {as bs : List Word} (h1 : KeepsMemory s t as) (h2 : KeepsMemory t u bs) :
    KeepsMemory s u (as ++ bs) := by
  obtain ⟨hsize1, hword1⟩ := h1
  obtain ⟨hsize2, hword2⟩ := h2
  refine ⟨hsize2.trans hsize1, fun b hb => ?_⟩
  rw [List.mem_append, not_or] at hb
  exact (hword2 b hb.2).trans (hword1 b hb.1)

theorem keepsMemory_of_mem_eq {s t : State} (h : t.mem = s.mem) : KeepsMemory s t [] :=
  ⟨congrArg Memory.size h, fun b _ => State.wordAt_of_mem_eq h b⟩

theorem State.keepsOthers_writeReg (s : State) (r : Reg) (v : Word) : KeepsOthers s (s.writeReg r v) [r] :=
  ⟨fun _ _ hq => s.readReg_writeReg_other v (List.ne_of_not_mem_cons hq), rfl, rfl⟩

theorem State.keepsOthers_writeReg_ip (s : State) (v : Word) : KeepsOthers s (s.writeReg .ip v) [] :=
  ⟨fun _ hq _ => s.readReg_writeReg_other v hq, rfl, rfl⟩

theorem State.keepsOthers_setMem (s : State) (m : Memory) : KeepsOthers s { s with mem := m } [] :=
  ⟨fun _ _ _ => rfl, rfl, rfl⟩

theorem State.advance_acc (s : State) (n : Nat) : (s.advance n).readReg .acc = s.readReg .acc :=
  s.advance_readReg n nofun

theorem State.advance_sp (s : State) (n : Nat) : (s.advance n).readReg .sp = s.readReg .sp :=
  s.advance_readReg n nofun

/-- ip past the instruction and one register written: what most instructions leave. -/
theorem State.advance_writeReg_rule (s : State) (n : Nat) (r : Reg) (v : Word) :
    ((s.advance n).writeReg r v).readReg r = v ∧
    (r ≠ .ip → ((s.advance n).writeReg r v).readReg .ip = s.readReg .ip + BitVec.ofNat 16 n) ∧
    KeepsOthers s ((s.advance n).writeReg r v) [r] ∧ KeepsMemory s ((s.advance n).writeReg r v) [] := by
  refine ⟨State.readReg_writeReg_same _ r v, fun hr => ?_, ?_, keepsMemory_of_mem_eq rfl⟩
  · rw [State.readReg_writeReg_other _ v hr.symm, s.advance_ip]
  · exact (s.keepsOthers_advance n).trans ((s.advance n).keepsOthers_writeReg r v)

/-- A fault raised after ip has moved is taken in the state before the step. -/
theorem State.finish_raise (s : State) (c : FaultCode) (w : Word) :
    s.finish (.error ⟨c, w⟩) = .next (s.haltedWith c w) := rfl

/-! ### Data movement -/

/-- Settles O28: the literal is written after ip has moved. -/
theorem movLitRegRule : Obligations.MovLitRegRule :=
  ⟨fetchesTwoOperands_of_reader rfl, fun lit rd s => ⟨_, rfl, s.advance_writeReg_rule 3 rd lit⟩⟩

/-- Settles O29: the source is read after ip has moved. -/
theorem movRegRegRule : Obligations.MovRegRegRule := by
  refine ⟨fetchesTwoOperands_of_reader rfl, fun rs rd s => ⟨_, rfl, ?_⟩⟩
  rw [s.advance_operand 3 rs]
  exact s.advance_writeReg_rule 3 rd _

/-- Settles O30: the store is `memWrite` with ip past the instruction. -/
theorem movRegMemRule : Obligations.MovRegMemRule := by
  refine ⟨fetchesTwoOperands_of_reader rfl, fun rs a s => ⟨fun ha => ?_, fun ha => ?_⟩⟩
  · rw [exec, execMovRegMem, State.memWrite_of_le (s := s.advance 3) _ ha, s.finish_raise]
  · have hexec : exec (.movRegMem rs a) s =
        .next { s.advance 3 with mem := s.mem.write a (s.operand 3 rs) } := by
      rw [exec, execMovRegMem, State.memWrite_of_lt (s := s.advance 3) _ ha, s.advance_operand, s.advance_mem,
        s.finish_ok]
    exact ⟨_, hexec, Memory.read_write_same a _, s.advance_ip 3,
      (s.keepsOthers_advance 3).trans ((s.advance 3).keepsOthers_setMem _), keepsMemory_of_mem_write rfl⟩

/-- Settles O31: the load is `memRead` with ip past the instruction. -/
theorem movMemRegRule : Obligations.MovMemRegRule := by
  refine ⟨fetchesTwoOperands_of_reader rfl, fun a rd s => ⟨fun ha => ?_, fun ha => ?_⟩⟩
  · rw [exec, execMovMemReg, State.memRead_of_le (s := s.advance 3) ha]
    exact s.finish_raise _ _
  · have hexec : exec (.movMemReg a rd) s = .next ((s.advance 3).writeReg rd (s.wordAt a)) := by
      rw [exec, execMovMemReg, State.memRead_of_lt (s := s.advance 3) ha]
      rfl
    exact ⟨_, hexec, s.advance_writeReg_rule 3 rd _⟩

/-! ### Arithmetic and control -/

theorem rawRegister_of_le {w : Word} (h : 12 ≤ w.toNat) : rawRegister w = .error ⟨.invalidRegisterIndex, w⟩ :=
  if_neg (Nat.not_lt.2 h)

theorem rawRegister_of_lt {w : Word} (h : w.toNat < 12) : rawRegister w = .ok (Reg.ofWord w) := if_pos h

theorem rawRegister_index (r : Reg) : rawRegister r.index = .ok r := by
  rw [rawRegister_of_lt r.index_lt, Reg.ofWord_index]

/-- ADD_REG_REG of two raw indices that name registers. -/
theorem exec_addRegReg_of_ok {i1 i2 : Word} {ra rb : Reg} (s : State) (h1 : rawRegister i1 = .ok ra)
    (h2 : rawRegister i2 = .ok rb) :
    exec (.addRegReg i1 i2) s = .next ((s.advance 3).writeReg .acc (s.operand 3 ra + s.operand 3 rb)) := by
  rw [exec, execAddRegReg, h1, h2]
  dsimp only
  rw [s.advance_operand, s.advance_operand, s.finish_ok, sum16]

/-- Settles O32: the raw indices are checked in order, and the sum is that of the two operands. -/
theorem addRegRegRule : Obligations.AddRegRegRule := by
  refine ⟨fetchesTwoOperands_of_reader rfl, fun i1 i2 s => ⟨fun h1 => ?_, fun h1 h2 => ?_, ?_⟩⟩
  · rw [exec, execAddRegReg, rawRegister_of_le h1]
    exact s.finish_raise _ _
  · rw [exec, execAddRegReg, rawRegister_of_lt h1, rawRegister_of_le h2]
    exact s.finish_raise _ _
  · rintro ra rb rfl rfl
    obtain ⟨hacc, hip, hothers, hmem⟩ := s.advance_writeReg_rule 3 .acc (s.operand 3 ra + s.operand 3 rb)
    refine ⟨_, exec_addRegReg_of_ok s (rawRegister_index ra) (rawRegister_index rb), ?_, hip nofun, hothers, hmem⟩
    rw [hacc, BitVec.toNat_add]

/-- Settles O37: both indices name registers, whose sum commutes. -/
theorem addCommutes : Obligations.AddCommutes := by
  intro i1 i2 s h
  simp only [Instr.wellFormed, Bool.and_eq_true, decide_eq_true_eq] at h
  have h1 := rawRegister_of_lt h.1
  have h2 := rawRegister_of_lt h.2
  rw [exec_addRegReg_of_ok s h1 h2, exec_addRegReg_of_ok s h2 h1, BitVec.add_comm]

/-- JUMP_NOT_EQ in one equation: ip is the target, or past the instruction where the literal is acc. -/
theorem exec_jumpNotEq (lit target : Word) (s : State) :
    exec (.jumpNotEq lit target) s =
      .next (if lit = s.readReg .acc then s.advance 3 else (s.advance 3).writeReg .ip target) := by
  rw [exec, execJumpNotEq, State.differsFromAcc, s.advance_acc, s.finish_ok]
  by_cases h : lit = s.readReg .acc <;> simp [h]

/-- Settles O33: a taken jump writes ip alone, so the next opcode fetch checks the target. -/
theorem jumpNotEqRule : Obligations.JumpNotEqRule := by
  refine ⟨fetchesTwoOperands_of_reader rfl, fun lit target s => ?_⟩
  rw [exec_jumpNotEq]
  by_cases hacc : lit = s.readReg .acc
  · rw [if_pos hacc, if_pos hacc]
    exact ⟨_, rfl, s.advance_ip 3, s.keepsOthers_advance 3, s.keepsMemory_advance 3, fun h => absurd hacc h⟩
  · rw [if_neg hacc, if_neg hacc]
    have hip := (s.advance 3).readReg_writeReg_same .ip target
    refine ⟨_, rfl, hip, (s.keepsOthers_advance 3).trans ((s.advance 3).keepsOthers_writeReg_ip target),
      keepsMemory_of_mem_eq rfl, fun _ hr htarget => ?_⟩
    have hout := opcodeFetchOutOfBoundsHalts ((s.advance 3).writeReg .ip target) hr
    rw [hip] at hout
    exact hout htarget

/-! ### The stack primitives, completing -/

theorem State.push_of_lt {s : State} (v : Word) (hfree : ¬ (s.config.stackCheck = .checked ∧ s.readReg .sp = 0))
    (hsp : (s.readReg .sp).toNat < s.mem.size) :
    s.push v = .ok ({ s with mem := s.mem.write (s.readReg .sp) v }.writeReg .sp (s.readReg .sp - 1)) := by
  obtain ⟨hc, h0, -⟩ | ⟨-, hle, -⟩ | ⟨-, -, e⟩ := s.push_cases v
  · exact absurd ⟨hc, h0⟩ hfree
  · omega
  · exact e

theorem State.pop_of_lt {s : State} (rd : Reg)
    (hsome : ¬ (s.config.stackCheck = .checked ∧ s.mem.size ≤ (s.readReg .sp).toNat + 1))
    (hsp : (s.readReg .sp + 1).toNat < s.mem.size) :
    s.pop rd = .ok ((s.writeReg .sp (s.readReg .sp + 1)).writeReg rd (s.wordAt (s.readReg .sp + 1))) := by
  obtain ⟨hc, h0, -⟩ | ⟨-, hle, -⟩ | ⟨-, -, e⟩ := s.pop_cases rd
  · exact absurd ⟨hc, h0⟩ hsome
  · omega
  · exact e

/-- What a push that completes leaves. -/
theorem State.push_rule {s t : State} {v : Word} (h : s.push v = .ok t) :
    (s.mem.wf = true → t.wordAt (s.readReg .sp) = v) ∧ t.readReg .sp = s.readReg .sp - 1 ∧
      t.readReg .ip = s.readReg .ip ∧ KeepsOthers s t [.sp] ∧ KeepsMemory s t [s.readReg .sp] := by
  obtain ⟨-, -, e⟩ | ⟨-, -, e⟩ | ⟨-, -, e⟩ := s.push_cases v <;> rw [e] at h <;> cases h
  exact ⟨Memory.read_write_same _ v, State.readReg_writeReg_same _ .sp _,
    State.readReg_writeReg_other _ (r := .sp) _ nofun,
    (s.keepsOthers_setMem _).trans (State.keepsOthers_writeReg _ .sp _), keepsMemory_of_mem_write rfl⟩

/-- A pop changes no register but sp and its destination, ip included. -/
theorem State.pop_readReg_other {s t : State} {rd q : Reg} (h : s.pop rd = .ok t) (hsp : q ≠ .sp) (hrd : q ≠ rd) :
    t.readReg q = s.readReg q := by
  obtain ⟨-, -, e⟩ | ⟨-, -, e⟩ | ⟨-, -, e⟩ := s.pop_cases rd <;> rw [e] at h <;> cases h
  rw [State.readReg_writeReg_other _ _ hrd, State.readReg_writeReg_other _ _ hsp]

/-- What a pop that completes leaves: the register is written after sp, so it keeps the popped word if it is sp. -/
theorem State.pop_rule {s t : State} {rd : Reg} (h : s.pop rd = .ok t) :
    t.readReg rd = s.wordAt (s.readReg .sp + 1) ∧ (rd ≠ .sp → t.readReg .sp = s.readReg .sp + 1) ∧
      (rd ≠ .ip → t.readReg .ip = s.readReg .ip) ∧ KeepsOthers s t [.sp, rd] ∧ KeepsMemory s t [] := by
  have hip := State.pop_readReg_other (q := .ip) h nofun
  obtain ⟨-, -, e⟩ | ⟨-, -, e⟩ | ⟨-, -, e⟩ := s.pop_cases rd <;> rw [e] at h <;> cases h
  refine ⟨State.readReg_writeReg_same _ rd _, fun hrd => ?_, fun hrd => hip hrd.symm,
    (s.keepsOthers_writeReg .sp _).trans (State.keepsOthers_writeReg _ rd _), keepsMemory_of_mem_eq rfl⟩
  rw [State.readReg_writeReg_other _ _ hrd.symm, State.readReg_writeReg_same]

/-! ### The stack instructions -/

/-- The rule of a push of `v` that ends a step, which PUSH_LIT and PUSH_REG share (R140). -/
theorem State.finish_push (s : State) (v : Word) :
    if s.config.stackCheck = .checked ∧ s.readReg .sp = 0 then
      s.finish ((s.advance 2).push v) = .next (s.haltedWith .stackOverflow 0)
    else if s.mem.size ≤ (s.readReg .sp).toNat then
      s.finish ((s.advance 2).push v) = .next (s.haltedWith .outOfBoundsMemoryAccess (s.readReg .sp))
    else ∃ t, s.finish ((s.advance 2).push v) = .next t ∧
      (s.mem.wf = true → t.wordAt (s.readReg .sp) = v) ∧ t.readReg .sp = s.readReg .sp - 1 ∧
      t.readReg .ip = s.readReg .ip + 2 ∧ KeepsOthers s t [.sp] ∧ KeepsMemory s t [s.readReg .sp] := by
  have hcases := (s.advance 2).push_cases v
  rw [s.advance_sp, s.advance_config, s.advance_mem] at hcases
  obtain ⟨hc, h0, e⟩ | ⟨hfree, hle, e⟩ | ⟨hfree, hlt, e⟩ := hcases
  · rw [if_pos ⟨hc, h0⟩, e, s.finish_raise]
  · rw [if_neg hfree, if_pos hle, e, s.finish_raise]
  · rw [if_neg hfree, if_neg (Nat.not_le.2 hlt), e]
    obtain ⟨hword, hsp, hip, hothers, hmem⟩ := State.push_rule e
    rw [s.advance_sp] at hword hsp hmem
    exact ⟨_, rfl, hword, hsp, hip.trans (s.advance_ip 2), (s.keepsOthers_advance 2).trans hothers,
      (s.keepsMemory_advance 2).trans hmem⟩

/-- Settles O34: a push of the literal. -/
theorem pushLitRule : Obligations.PushLitRule :=
  ⟨fetchesOneOperand_of_reader rfl, fun lit s => s.finish_push lit⟩

/-- Settles O35: a push of what the register held before sp moved. -/
theorem pushRegRule : Obligations.PushRegRule := by
  refine ⟨fetchesOneOperand_of_reader rfl, fun rs s => ?_⟩
  rw [exec, execPushReg, s.advance_operand]
  exact s.finish_push (s.operand 2 rs)

/-- Settles O36: `pop` with ip past the instruction. -/
theorem popRule : Obligations.PopRule := by
  refine ⟨fetchesOneOperand_of_reader rfl, fun rd s => ?_⟩
  have hcases := (s.advance 2).pop_cases rd
  rw [s.advance_sp, s.advance_config, s.advance_mem] at hcases
  rw [exec, execPop]
  obtain ⟨hc, h0, e⟩ | ⟨hsome, hle, e⟩ | ⟨hsome, hlt, e⟩ := hcases
  · rw [if_pos ⟨hc, h0⟩, e, s.finish_raise]
  · rw [if_neg hsome, if_pos hle, e, s.finish_raise]
  · rw [if_neg hsome, if_neg (Nat.not_le.2 hlt), e]
    obtain ⟨hrd, hsp, hip, hothers, hmem⟩ := State.pop_rule e
    rw [s.advance_sp] at hrd hsp
    exact ⟨_, rfl, hrd, hsp, fun h => (hip h).trans (s.advance_ip 2), (s.keepsOthers_advance 2).trans hothers,
      (s.keepsMemory_advance 2).trans hmem⟩

end Sys2Proof.Machine
end

section
/-! PROOFS. Everything an instruction and a step can do: halt with a record that is true of the state before, or
complete. The frames over all instructions and the facts about faults follow (60_exceptions.md R161 to R171). -/

namespace Sys2Proof.Machine

/-! ### What an instruction can do -/

/-- `t` is `s` halted with a fault whose record is true of `s`. -/
def HaltsTruthfully (s t : State) (code : FaultCode) (info : Word) : Prop :=
  t = s.haltedWith code info ∧ s.recordHolds ⟨code, info, s.readReg .ip⟩ = true

/-- Instruction `i` completes from `s` in `t`: its frame (10_state.md R22) and where it leaves ip (R86). -/
structure Completes (i : Instr) (s t : State) : Prop where
  status : t.status = s.status
  config : t.config = s.config
  frame : ∀ q, i.writes q = false → t.readReg q = s.readReg q
  ip : i.destination ≠ some .ip → (∀ lit target, i = .jumpNotEq lit target → lit = s.readReg .acc) →
    t.readReg .ip = s.readReg .ip + BitVec.ofNat 16 i.length

theorem writes_ip (i : Instr) : i.writes .ip = true := rfl

theorem writes_destination {i : Instr} {rd : Reg} (h : i.destination = some rd) : i.writes rd = true := by
  simp [Instr.writes, h]

/-- The frame of `Completes` from that of an instruction's rule. -/
theorem KeepsOthers.completes {i : Instr} {s t : State} {written : List Reg} (h : KeepsOthers s t written)
    (hw : ∀ q ∈ written, i.writes q = true)
    (hip : i.destination ≠ some .ip → (∀ lit target, i = .jumpNotEq lit target → lit = s.readReg .acc) →
      t.readReg .ip = s.readReg .ip + BitVec.ofNat 16 i.length) : Completes i s t := by
  obtain ⟨hreg, hstatus, hconfig⟩ := h
  refine ⟨hstatus, hconfig, fun q hq => hreg q ?_ ?_, hip⟩
  · rintro rfl
    exact Bool.noConfusion ((writes_ip i).symm.trans hq)
  · exact fun hmem => Bool.noConfusion ((hw q hmem).symm.trans hq)

/-- The same for an instruction that writes its destination alone. -/
theorem KeepsOthers.completes_destination {i : Instr} {s t : State} {rd : Reg} (h : KeepsOthers s t [rd])
    (hd : i.destination = some rd) (hip : rd ≠ .ip → t.readReg .ip = s.readReg .ip + BitVec.ofNat 16 i.length) :
    Completes i s t := by
  refine h.completes (fun q hq => ?_) fun hne _ => hip fun h => hne (h ▸ hd)
  rw [List.mem_singleton.1 hq]
  exact writes_destination hd

/-! The records of the faults that actions raise are true. -/

theorem recordHolds_outOfBounds {s : State} {a : Word} (h : s.mem.size ≤ a.toNat) :
    s.recordHolds ⟨.outOfBoundsMemoryAccess, a, s.readReg .ip⟩ = true := by
  simp [State.recordHolds, (s.mem.has_eq_false a).2 h]

theorem recordHolds_unknownOpcode {s : State} (hip : (s.readReg .ip).toNat < s.mem.size)
    (hfind : s.config.opcodes.find? (s.wordAt (s.readReg .ip)) = none) (hpol : s.config.unknownOpcode = .fault) :
    s.recordHolds ⟨.unknownOpcode, s.wordAt (s.readReg .ip), s.readReg .ip⟩ = true := by
  simp [State.recordHolds, (s.mem.has_iff _).2 hip, hfind, hpol]

theorem recordHolds_stackOverflow {s : State} (hc : s.config.stackCheck = .checked) (hsp : s.readReg .sp = 0) :
    s.recordHolds ⟨.stackOverflow, 0, s.readReg .ip⟩ = true := by
  simp [State.recordHolds, hc, hsp]

theorem recordHolds_stackUnderflow {s : State} (hc : s.config.stackCheck = .checked)
    (hsp : s.mem.size ≤ (s.readReg .sp).toNat + 1) :
    s.recordHolds ⟨.stackUnderflow, s.readReg .sp, s.readReg .ip⟩ = true := by
  simp [State.recordHolds, hc, hsp]

theorem recordHolds_invalidRegisterIndex {s : State} {w : Word} (h : 12 ≤ w.toNat) :
    s.recordHolds ⟨.invalidRegisterIndex, w, s.readReg .ip⟩ = true := by
  simp [State.recordHolds, h]

/-- What `exec` of an instruction can do, from the instructions' rules. -/
def ExecOutcome (i : Instr) (s t : State) : Prop :=
  (∃ code info, code ∈ actionFaults i ∧ HaltsTruthfully s t code info) ∨ Completes i s t

/-- A push of `v` that ends a step, in an instruction of two words that names no destination. -/
theorem finish_push_outcome {i : Instr} {s : State} {v : Word}
    (hfaults : actionFaults i = [.stackOverflow, .outOfBoundsMemoryAccess]) (hlen : i.length = 2)
    (hsp : i.writes .sp = true) :
    ∃ t, s.finish ((s.advance 2).push v) = .next t ∧ ExecOutcome i s t := by
  have hrule := s.finish_push v
  split at hrule
  · next h =>
    exact ⟨_, hrule, .inl ⟨_, _, by simp [hfaults], rfl, recordHolds_stackOverflow h.1 h.2⟩⟩
  · split at hrule
    · next h => exact ⟨_, hrule, .inl ⟨_, _, by simp [hfaults], rfl, recordHolds_outOfBounds h⟩⟩
    · obtain ⟨t, hexec, -, -, hnext, hothers, -⟩ := hrule
      exact ⟨t, hexec, .inr (hothers.completes (by simpa using hsp) fun _ _ => hlen ▸ hnext)⟩

/-- Every instruction answers a next state: halted by one of its own faults, or completed. -/
theorem exec_cases (i : Instr) (s : State) : ∃ t, exec i s = .next t ∧ ExecOutcome i s t := by
  cases i with
  | movLitReg lit rd =>
    obtain ⟨t, hexec, -, hip, hothers, -⟩ := movLitRegRule.2 lit rd s
    exact ⟨t, hexec, .inr (hothers.completes_destination rfl hip)⟩
  | movRegReg rs rd =>
    obtain ⟨t, hexec, -, hip, hothers, -⟩ := movRegRegRule.2 rs rd s
    exact ⟨t, hexec, .inr (hothers.completes_destination rfl hip)⟩
  | movRegMem rs a =>
    obtain ⟨hhalt, hstore⟩ := movRegMemRule.2 rs a s
    rcases Nat.lt_or_ge a.toNat s.mem.size with ha | ha
    · obtain ⟨t, hexec, -, hip, hothers, -⟩ := hstore ha
      exact ⟨t, hexec, .inr (hothers.completes nofun fun _ _ => hip)⟩
    · exact ⟨_, hhalt ha, .inl ⟨_, _, by simp [actionFaults], rfl, recordHolds_outOfBounds ha⟩⟩
  | movMemReg a rd =>
    obtain ⟨hhalt, hload⟩ := movMemRegRule.2 a rd s
    rcases Nat.lt_or_ge a.toNat s.mem.size with ha | ha
    · obtain ⟨t, hexec, -, hip, hothers, -⟩ := hload ha
      exact ⟨t, hexec, .inr (hothers.completes_destination rfl hip)⟩
    · exact ⟨_, hhalt ha, .inl ⟨_, _, by simp [actionFaults], rfl, recordHolds_outOfBounds ha⟩⟩
  | addRegReg i1 i2 =>
    obtain ⟨hfirst, hsecond, -⟩ := addRegRegRule.2 i1 i2 s
    rcases Nat.lt_or_ge i1.toNat 12 with h1 | h1
    · rcases Nat.lt_or_ge i2.toNat 12 with h2 | h2
      · obtain ⟨-, hip, hothers, -⟩ := s.advance_writeReg_rule 3 .acc
          (s.operand 3 (Reg.ofWord i1) + s.operand 3 (Reg.ofWord i2))
        exact ⟨_, exec_addRegReg_of_ok s (rawRegister_of_lt h1) (rawRegister_of_lt h2),
          .inr (hothers.completes (by simp [Instr.writes]) fun _ _ => hip nofun)⟩
      · exact ⟨_, hsecond h1 h2, .inl ⟨_, _, by simp [actionFaults], rfl, recordHolds_invalidRegisterIndex h2⟩⟩
    · exact ⟨_, hfirst h1, .inl ⟨_, _, by simp [actionFaults], rfl, recordHolds_invalidRegisterIndex h1⟩⟩
  | jumpNotEq lit target =>
    obtain ⟨t, hexec, hip, hothers, -⟩ := jumpNotEqRule.2 lit target s
    exact ⟨t, hexec, .inr (hothers.completes nofun fun _ hacc => hip.trans (if_pos (hacc _ _ rfl)))⟩
  | pushLit lit => exact finish_push_outcome (i := .pushLit lit) rfl rfl rfl
  | pushReg rs => exact finish_push_outcome (i := .pushReg rs) rfl rfl rfl
  | pop rd =>
    have hrule := popRule.2 rd s
    split at hrule
    · next h =>
      exact ⟨_, hrule, .inl ⟨_, _, by simp [actionFaults], rfl, recordHolds_stackUnderflow h.1 h.2⟩⟩
    · split at hrule
      · next h => exact ⟨_, hrule, .inl ⟨_, _, by simp [actionFaults], rfl, recordHolds_outOfBounds h⟩⟩
      · obtain ⟨t, hexec, -, -, hip, hothers, -⟩ := hrule
        exact ⟨t, hexec, .inr (hothers.completes (by simp [Instr.writes, Instr.destination])
          fun hd _ => hip (mt (congrArg some) hd))⟩

theorem exec_next {i : Instr} {s t : State} (h : exec i s = .next t) : ExecOutcome i s t := by
  obtain ⟨u, hexec, hout⟩ := exec_cases i s
  cases hexec.symm.trans h
  exact hout

/-- Settles O20: a completed instruction keeps the latch RUNNING, so a halt is one of the instruction's own faults. -/
theorem faultCodesByInstruction : Obligations.FaultCodesByInstruction := by
  intro i s t r hr h hhalt
  obtain ⟨code, info, hcode, rfl, -⟩ | hc := exec_next h
  · cases hhalt
    exact hcode
  · cases hr.symm.trans (hc.status.symm.trans hhalt)

/-- Settles O25: a halt keeps every register, and a completed instruction those it does not write. -/
theorem onlyWrittenRegistersChange : Obligations.OnlyWrittenRegistersChange := by
  intro i s t q h hq
  obtain ⟨code, info, -, rfl, -⟩ | hc := exec_next h
  · rfl
  · exact hc.frame q hq

/-- Settles O27: a RUNNING next state is no halt, so the instruction completed. -/
theorem sequentialFlow : Obligations.SequentialFlow := by
  intro i s t h hr hdest hjump
  obtain ⟨code, info, -, rfl, -⟩ | hc := exec_next h
  · cases hr
  · exact hc.ip hdest hjump

/-! ### What a step can do -/

/-- A RUNNING core's step answers a next state: halted with a record that is true of the state before, or RUNNING
with the same parameters. -/
theorem step_running_cases {s : State} (hr : s.Running) :
    ∃ t, step s = .next t ∧ ((∃ code info, HaltsTruthfully s t code info) ∨ (t.Running ∧ t.config = s.config)) := by
  obtain ⟨e, hfetch, hstep⟩ | ⟨op, u, hfetch, hstep⟩ | ⟨i, u, -, hstep⟩ := step_cases hr
  · obtain ⟨code, info⟩ := e
    obtain ⟨rfl, hout⟩ := State.fetchInstr_error hfetch
    exact ⟨_, hstep, .inl ⟨_, _, rfl, recordHolds_outOfBounds hout⟩⟩
  · obtain ⟨-, e⟩ | ⟨hip, hfind, e⟩ | ⟨k, -, -, ⟨_, -, e⟩ | ⟨_, _, -, e⟩⟩ := s.fetchInstr_cases <;>
      cases e.symm.trans hfetch
    obtain ⟨hpol, e⟩ | ⟨-, e⟩ := s.unknownOpcode_cases (s.wordAt (s.readReg .ip))
    · exact ⟨_, hstep.trans e, .inl ⟨_, _, rfl, recordHolds_unknownOpcode hip hfind hpol⟩⟩
    · exact ⟨_, hstep.trans e, .inr ⟨hr, rfl⟩⟩
  · obtain ⟨t, hexec, ⟨code, info, -, hhalt⟩ | hc⟩ := exec_cases i s
    · exact ⟨t, hstep.trans hexec, .inl ⟨code, info, hhalt⟩⟩
    · exact ⟨t, hstep.trans hexec, .inr ⟨hc.status.trans hr, hc.config⟩⟩

/-- A step that answers a next state was one of a RUNNING core. -/
theorem running_of_step_next {s t : State} (h : step s = .next t) : s.Running := by
  cases hs : s.status with
  | running => exact hs
  | halted r => cases (step_halted hs).symm.trans h

theorem step_next {s t : State} (h : step s = .next t) :
    (∃ code info, HaltsTruthfully s t code info) ∨ (t.Running ∧ t.config = s.config) := by
  obtain ⟨u, hstep, hout⟩ := step_running_cases (running_of_step_next h)
  cases hstep.symm.trans h
  exact hout

/-- A step that halts leaves a record that is true of the state before. -/
theorem step_halts {s t : State} {r : FaultRecord} (h : step s = .next t) (hhalt : t.status = .halted r) :
    t = s.haltedWith r.code r.info ∧ r.ip = s.readReg .ip ∧ s.recordHolds r = true := by
  obtain ⟨code, info, rfl, hrec⟩ | ⟨hr, -⟩ := step_next h
  · cases hhalt
    exact ⟨rfl, rfl, hrec⟩
  · cases hr.symm.trans hhalt

theorem hostCall_step_of_next {s t : State} (h : step s = .next t) : hostCall .step s = (t, t.stepReply) := by
  simp only [hostCall, h]

theorem hostCall_step_of_halted {s : State} {r : FaultRecord} (h : s.status = .halted r) :
    hostCall .step s = (s, .fault r) := by
  simp only [hostCall, step_halted h]

/-- Settles O17: the host's reply is read from the latch of the next state. -/
theorem runningStepAnswers : Obligations.RunningStepAnswers := by
  intro s hr
  obtain ⟨t, hstep, hout⟩ := step_running_cases hr
  refine ⟨t, hstep, ?_⟩
  rw [hostCall_step_of_next hstep]
  obtain ⟨code, info, rfl, -⟩ | ⟨ht, -⟩ := hout
  · exact .inr ⟨_, rfl, rfl, rfl⟩
  · exact .inl ⟨ht, by rw [State.stepReply, ht]⟩

/-- Settles O18: a halt is the state before with only the latch changed. -/
theorem faultsArePrecise : Obligations.FaultsArePrecise := by
  intro s t r _ h hhalt
  obtain ⟨ht, hip, -⟩ := step_halts h hhalt
  exact ⟨ht, hip⟩

/-- Settles O11: the record of an out-of-bounds access is true, and 65536 words leave no address out. -/
theorem fullMemoryNeverOutOfBounds : Obligations.FullMemoryNeverOutOfBounds := by
  rintro s t ⟨code, info, ip⟩ hsize _ h hhalt rfl
  obtain ⟨-, -, hrec⟩ := step_halts h hhalt
  have hout : s.mem.has info = false := by
    simp only [State.recordHolds, Bool.and_eq_true, Bool.not_eq_true'] at hrec
    exact hrec.2
  have hle := (s.mem.has_eq_false info).1 hout
  have hlt := info.isLt
  omega

/-- Settles O19: each call of a HALTED core leaves it as it is, by induction on the calls. -/
theorem haltedForGood : Obligations.HaltedForGood := by
  intro n s r h
  have hcall := hostCall_step_of_halted h
  have hstays : afterSteps n s = s := by
    induction n with
    | zero => rfl
    | succ n ih => rw [afterSteps, hcall, ih]
  exact ⟨hstays, step_halted h, by rw [hstays, hcall]⟩

/-! ### What every step keeps -/

theorem StoresAtMost.last_eq {stored : Option Word} {s t : State} (h : StoresAtMost stored s t) :
    t.mem.last = s.mem.last := by
  obtain hmem | ⟨a, v, -, -, hmem⟩ := h <;> rw [hmem]
  rfl

theorem StoresAtMost.wf {stored : Option Word} {s t : State} (h : StoresAtMost stored s t) (hw : s.mem.wf = true) :
    t.mem.wf = true := by
  obtain hmem | ⟨a, v, -, ha, hmem⟩ := h <;> rw [hmem]
  · exact hw
  · exact Memory.write_wf v ((s.mem.has_iff a).2 ha) hw

theorem step_stores {s t : State} (h : step s = .next t) : ∃ stored, StoresAtMost stored s t := by
  obtain hmem | ⟨i, u, -, hst⟩ := step_storesAtMost h
  · exact ⟨none, .inl hmem⟩
  · exact ⟨_, hst⟩

theorem step_config {s t : State} (h : step s = .next t) : t.config = s.config := by
  obtain ⟨code, info, rfl, -⟩ | ⟨-, hconfig⟩ := step_next h
  · rfl
  · exact hconfig

/-- Settles O24: a halt and a completion both keep the parameters, and a store keeps the size. -/
theorem stepKeepsParameters : Obligations.StepKeepsParameters := by
  intro s t h
  obtain ⟨stored, hst⟩ := step_stores h
  exact ⟨step_config h, hst.last_eq⟩

/-- The latch after a step tells the truth: a RUNNING one claims nothing, and a fault's record speaks of registers,
memory and parameters, which the fault keeps. -/
theorem latchHolds_of_step {s t : State} (h : step s = .next t) : t.latchHolds = true := by
  obtain ⟨code, info, rfl, hrec⟩ | ⟨hr, -⟩ := step_next h
  · exact hrec
  · rw [State.latchHolds, hr]

theorem State.wf_iff (s : State) :
    s.wf = true ↔ s.mem.wf = true ∧ s.config.opcodes.Injective ∧ s.latchHolds = true := by
  simp [State.wf, and_assoc]

/-- Settles O21: memory is kept or written at an address that exists, the opcode map is kept, and the latch is true
after every step. -/
theorem stepKeepsWellFormed : Obligations.StepKeepsWellFormed := by
  intro s t hw h
  obtain ⟨hmem, hinj, -⟩ := s.wf_iff.1 hw
  obtain ⟨stored, hst⟩ := step_stores h
  exact t.wf_iff.2 ⟨hst.wf hmem, step_config h ▸ hinj, latchHolds_of_step h⟩

end Sys2Proof.Machine
end

section
/-! PROOFS. Instructions in sequence: self-modification (20_memory.md R54), the LIFO law (44_stack.md R146) and the call
idiom (30_encoding.md R73). -/

namespace Sys2Proof.Machine

/-- Settles O10: after the store ip stands at the word stored. -/
theorem storeSeenByNextFetch : Obligations.StoreSeenByNextFetch := by
  intro s rs hw hlt
  obtain ⟨t, hexec, hword, hip, -, hsize, -⟩ := (movRegMemRule.2 rs (s.readReg .ip + 3) s).2 hlt
  have hfetch : t.fetch = .ok (t.wordAt (t.readReg .ip), t.advance 1) :=
    State.fetch_of_lt (by rw [hip, hsize]; exact hlt)
  rw [hip, hword hw] at hfetch
  exact ⟨t, _, hexec, hfetch⟩

/-! ### Push and pop inside the stack -/

/-- A push with sp in 1..N-1 completes in both modes. -/
theorem State.push_completes {s : State} (v : Word) (hlo : 1 ≤ (s.readReg .sp).toNat)
    (hhi : (s.readReg .sp).toNat < s.mem.size) : ∃ t, s.push v = .ok t := by
  refine ⟨_, State.push_of_lt v (fun h => ?_) hhi⟩
  rw [h.2] at hlo
  exact absurd hlo (by decide)

/-- A pop with sp in 0..N-2 completes in both modes. -/
theorem State.pop_completes {s : State} (rd : Reg) (h : (s.readReg .sp).toNat + 1 < s.mem.size) :
    ∃ t, s.pop rd = .ok t := by
  have hnext : (s.readReg .sp + 1).toNat ≤ (s.readReg .sp).toNat + 1 := by
    rw [BitVec.toNat_add]
    exact Nat.mod_le _ _
  exact ⟨_, State.pop_of_lt rd (fun h' => by omega) (by omega)⟩

theorem State.push_mem_wf {s t : State} {v : Word} (h : s.push v = .ok t) (hw : s.mem.wf = true) : t.mem.wf = true :=
  (State.push_ok h).wf hw

theorem Word.toNat_sub_one {w : Word} (h : 1 ≤ w.toNat) : (w - 1).toNat = w.toNat - 1 := by
  bv_omega

/-- Settles O38: each of the four completes, and the pops find the two words where the pushes put them. -/
theorem pushPushPopPop : Obligations.PushPushPopPop := by
  intro s v1 v2 a b hw hlo hhi hab ha hb
  have hsp1 := Word.toNat_sub_one (w := s.readReg .sp) (by omega)
  have hsp2 := Word.toNat_sub_one (w := s.readReg .sp - 1) (by omega)
  obtain ⟨s1, e1⟩ := s.push_completes v1 (by omega) hhi
  obtain ⟨hword1, hs1, -, -, hmem1⟩ := State.push_rule e1
  obtain ⟨s2, e2⟩ := s1.push_completes v2 (by rw [hs1]; omega) (by rw [hs1, hmem1.1]; omega)
  obtain ⟨hword2, hs2, -, -, hmem2⟩ := State.push_rule e2
  rw [hs1] at hword2 hs2 hmem2
  obtain ⟨s3, e3⟩ := s2.pop_completes a (by rw [hs2, hmem2.1, hmem1.1]; omega)
  obtain ⟨ha3, hs3, -, -, hmem3⟩ := State.pop_rule e3
  rw [hs2, BitVec.sub_add_cancel] at ha3 hs3
  obtain ⟨s4, e4⟩ := s3.pop_completes b (by rw [hs3 ha, hmem3.1, hmem2.1, hmem1.1]; omega)
  obtain ⟨hb4, hs4, -, -, hmem4⟩ := State.pop_rule e4
  rw [hs3 ha, BitVec.sub_add_cancel] at hb4 hs4
  have hne : s.readReg .sp ∉ [s.readReg .sp - 1] := by
    intro h
    have := congrArg BitVec.toNat (List.mem_singleton.1 h)
    omega
  have htop : s2.wordAt (s.readReg .sp - 1) = v2 := hword2 (State.push_mem_wf e1 hw)
  have hbottom : s2.wordAt (s.readReg .sp) = v1 := (hmem2.2 _ hne).trans (hword1 hw)
  have hpops : ∀ c, s4.wordAt c = s2.wordAt c := fun c => (hmem3.trans hmem4).2 c List.not_mem_nil
  refine ⟨s1, s2, s3, s4, e1, e2, e3, e4, ?_, ?_, hs4 hb, (hpops _).trans hbottom, (hpops _).trans htop,
    ((hmem1.trans hmem2).trans hmem3).trans hmem4⟩
  · rw [State.pop_readReg_other e4 ha hab, ha3, htop]
  · rw [hb4, hmem3.2 _ List.not_mem_nil, hbottom]

/-- Settles O39: the return pops, from the address that sp then names, the word that the call pushed. -/
theorem callThenReturn : Obligations.CallThenReturn := by
  intro s ret target hw hlo hhi
  have hsp := Word.toNat_sub_one hlo
  have hpush := pushLitRule.2 ret s
  have hne : s.readReg .sp ≠ 0 := fun h => by rw [h] at hlo; exact absurd hlo (by decide)
  rw [if_neg fun h => hne h.2, if_neg (Nat.not_le.2 hhi)] at hpush
  obtain ⟨s1, e1, hword1, hs1, -, -, hsize1, -⟩ := hpush
  obtain ⟨s2, e2, hip2, -, ⟨hreg2, -, -⟩, hsize2, hword2⟩ := movLitRegRule.2 target .ip s1
  refine ⟨s1, s2, e1, e2, hip2, fun u _ husize husp huword => ?_⟩
  have hs : u.readReg .sp + 1 = s.readReg .sp := by
    rw [husp, hreg2 .sp nofun (by decide), hs1, BitVec.sub_add_cancel]
  have hu : (u.readReg .sp).toNat + 1 = (s.readReg .sp).toNat := by
    rw [husp, hreg2 .sp nofun (by decide), hs1]
    omega
  have hpop := popRule.2 .ip u
  rw [if_neg fun h => by omega, if_neg (by rw [hs]; omega), hs, huword, hword2 _ List.not_mem_nil, hword1 hw] at hpop
  obtain ⟨v, e, hip, hspv, -⟩ := hpop
  exact ⟨v, e, hip, hspv nofun⟩

end Sys2Proof.Machine
end

section
/-! PROOFS. Construction, the host's queries, and runs (70_reset_and_hazards.md R190, R196 to R199). -/

namespace Sys2Proof.Machine

/-- Settles O22: reset is construction with an injective map on a canonical memory. -/
theorem resetIsWellFormed : Obligations.ResetIsWellFormed := newCPU_wf (by decide) Memory.ofReset_wf

/-- Settles O40: sp and fp hold the memory's last address, which is its size less one. -/
theorem constructionValues : Obligations.ConstructionValues := by
  intro c m
  have hlast : BitVec.ofNat 16 (m.size - 1) = m.last := by simp [Memory.size]
  refine ⟨fun r => ?_, rfl, rfl, rfl⟩
  rw [hlast]
  cases r <;> rfl

/-! ### Queries -/

/-- A call leaves the state as it is, or is a `step` that answers the next state. -/
theorem hostCall_fst_cases (c : HostCall) (s : State) :
    (hostCall c s).1 = s ∨ (c = .step ∧ step s = .next (hostCall c s).1) := by
  cases c with
  | step =>
    cases h : s.status with
    | halted r => exact .inl (congrArg Prod.fst (hostCall_step_of_halted h))
    | running =>
      obtain ⟨t, hstep, -⟩ := step_running_cases h
      refine .inr ⟨rfl, ?_⟩
      rw [hostCall_step_of_next hstep, hstep]
  | getRegister name =>
    unfold hostCall
    dsimp only
    split <;> exact .inl rfl
  | debug => exact .inl rfl
  | viewMemoryAt a =>
    unfold hostCall
    dsimp only
    split <;> exact .inl rfl

theorem hostCall_fst_of_ne_step {c : HostCall} (h : c ≠ .step) (s : State) : (hostCall c s).1 = s :=
  (hostCall_fst_cases c s).resolve_right fun h' => h h'.1

/-- Settles O43: only `step` changes the state, and an address that does not exist is an error of the query. -/
theorem queriesChangeNothing : Obligations.QueriesChangeNothing := by
  refine fun s c hc => ⟨hostCall_fst_of_ne_step hc s, fun a ha => if_neg ?_⟩
  rw [(s.mem.has_eq_false a).2 ha]
  exact Bool.false_ne_true

/-- The twelve names are different, so each finds its own register. -/
theorem regOfName_regName (r : Reg) : regOfName (regName r) = some r := by
  cases r <;> decide

theorem regOfName_eq_none {name : String} (h : ∀ r, regName r ≠ name) : regOfName name = none :=
  List.find?_eq_none.2 fun r _ => by simpa using h r

/-- Settles O42: the lookup by name answers a register exactly for the twelve names. -/
theorem getRegisterByName : Obligations.GetRegisterByName := by
  refine fun s => ⟨fun r => ?_, fun name h => ?_⟩
  · simp only [hostCall, State.getRegister, regOfName_regName]
  · simp only [hostCall, State.getRegister, regOfName_eq_none h]

/-! ### Runs -/

theorem run_succ_of_goesOn {s : State} (fuel : Nat) (h : s.runEnd = .goesOn) :
    run (fuel + 1) s = run fuel (hostCall .step s).1 := by
  simp only [run, h]

theorem run_of_ended {s : State} (fuel : Nat) (h : s.runEnd ≠ .goesOn) : run fuel s = s := by
  cases fuel with
  | zero => rfl
  | succ fuel =>
    cases he : s.runEnd with
    | goesOn => exact absurd he h
    | endsNormally => simp only [run, he]
    | endsInFault r => simp only [run, he]

theorem State.runEnd_eq_endsNormally_iff (s : State) :
    s.runEnd = .endsNormally ↔ s.Running ∧ s.config.endIp = some (s.readReg .ip) := by
  unfold State.runEnd State.Running
  cases s.status with
  | running => simp
  | halted r => simp

/-- Settles O44, by induction on the steps left: a run that goes on takes one and is then a shorter run. -/
theorem runStopsAtItsEnd : Obligations.RunStopsAtItsEnd := by
  refine ⟨fun fuel => ?_, State.runEnd_eq_endsNormally_iff⟩
  induction fuel with
  | zero => exact fun s => ⟨0, Nat.le_refl 0, rfl, nofun, nofun⟩
  | succ fuel ih =>
    intro s
    by_cases h : s.runEnd = .goesOn
    · obtain ⟨k, hk, hrun, hgoes, hend⟩ := ih (hostCall .step s).1
      rw [run_succ_of_goesOn fuel h]
      refine ⟨k + 1, Nat.succ_le_succ hk, hrun, fun j hj => ?_, fun hlt => hend (Nat.lt_of_succ_lt_succ hlt)⟩
      cases j with
      | zero => exact h
      | succ j => exact hgoes j (Nat.lt_of_succ_lt_succ hj)
    · rw [run_of_ended _ h]
      exact ⟨0, Nat.zero_le _, rfl, nofun, fun _ => h⟩

end Sys2Proof.Machine
end

section
/-! PROOFS. Host writes, booting and the host's session (70_reset_and_hazards.md R190 to R195). -/

namespace Sys2Proof.Machine

/-! ### Host writes one after the other -/

theorem hostWrites_cons (m : Memory) (a v : Word) (rest : List (Word × Word)) :
    hostWrites m ((a, v) :: rest) = (hostWrite m a v).bind (hostWrites · rest) := by
  rw [hostWrites]
  cases hostWrite m a v <;> rfl

theorem hostWrites_append (m : Memory) (xs ys : List (Word × Word)) :
    hostWrites m (xs ++ ys) = (hostWrites m xs).bind (hostWrites · ys) := by
  induction xs generalizing m with
  | nil => rfl
  | cons x xs ih =>
    obtain ⟨a, v⟩ := x
    rw [List.cons_append, hostWrites_cons, hostWrites_cons]
    cases hostWrite m a v with
    | none => rfl
    | some m' => exact ih m'

/-- Host writes that are had, taken apart at the first one. -/
theorem hostWrites_cons_some {m m' : Memory} {a v : Word} {rest : List (Word × Word)}
    (h : hostWrites m ((a, v) :: rest) = some m') :
    a.toNat < m.size ∧ hostWrites (m.write a v) rest = some m' := by
  rw [hostWrites_cons] at h
  obtain ⟨m1, h1, hrest⟩ := Option.bind_eq_some_iff.1 h
  obtain ⟨ha, rfl⟩ := hostWrite_some h1
  exact ⟨ha, hrest⟩

theorem Memory.size_eq_of_last_eq {m m' : Memory} (h : m'.last = m.last) : m'.size = m.size := by
  rw [Memory.size, Memory.size, h]

theorem hostWrites_last {m m' : Memory} {ws : List (Word × Word)} (h : hostWrites m ws = some m') :
    m'.last = m.last := by
  induction ws generalizing m with
  | nil => cases h; rfl
  | cons w ws ih =>
    obtain ⟨-, hrest⟩ := hostWrites_cons_some h
    exact (ih hrest).trans (m.write_last w.1 w.2)

theorem hostWrites_size {m m' : Memory} {ws : List (Word × Word)} (h : hostWrites m ws = some m') :
    m'.size = m.size :=
  Memory.size_eq_of_last_eq (hostWrites_last h)

theorem hostWrites_wf {m m' : Memory} {ws : List (Word × Word)} (hw : m.wf = true)
    (h : hostWrites m ws = some m') : m'.wf = true := by
  induction ws generalizing m with
  | nil => cases h; exact hw
  | cons w ws ih =>
    obtain ⟨ha, hrest⟩ := hostWrites_cons_some h
    exact ih (Memory.write_wf _ ((m.has_iff _).2 ha) hw) hrest

/-- Every write that is had is inside the memory. -/
theorem hostWrites_mem_lt {m m' : Memory} {ws : List (Word × Word)} {a v : Word}
    (h : hostWrites m ws = some m') (hmem : (a, v) ∈ ws) : a.toNat < m.size := by
  induction ws generalizing m with
  | nil => cases hmem
  | cons w ws ih =>
    obtain ⟨ha, hrest⟩ := hostWrites_cons_some h
    obtain rfl | hmem := List.mem_cons.1 hmem
    · exact ha
    · exact m.write_size w.1 w.2 ▸ ih hrest hmem

/-- A word that no write addresses stays. -/
theorem hostWrites_read_other {m m' : Memory} {ws : List (Word × Word)} {a : Word}
    (h : hostWrites m ws = some m') (hno : ∀ v, (a, v) ∉ ws) : m'.read a = m.read a := by
  induction ws generalizing m with
  | nil => cases h; rfl
  | cons w ws ih =>
    obtain ⟨b, u⟩ := w
    have hab : a ≠ b := by
      rintro rfl
      exact hno u List.mem_cons_self
    rw [ih (hostWrites_cons_some h).2 fun v hmem => hno v (List.mem_cons_of_mem _ hmem),
      m.read_write_other u hab]

/-- A word holds its last write. -/
theorem hostWrites_read_last {m m' : Memory} {before after : List (Word × Word)} {a v : Word} (hw : m.wf = true)
    (h : hostWrites m (before ++ (a, v) :: after) = some m') (hlast : ∀ u, (a, u) ∉ after) : m'.read a = v := by
  rw [hostWrites_append] at h
  obtain ⟨m1, hbefore, hrest⟩ := Option.bind_eq_some_iff.1 h
  rw [hostWrites_read_other (hostWrites_cons_some hrest).2 hlast,
    Memory.read_write_same a v (hostWrites_wf hw hbefore)]

/-! ### Booting -/

/-- Booting is creation, the writes, and construction, for an injective map. -/
theorem boot_of_injective {c : Config} (hc : c.opcodes.Injective) (size : Nat) (ws : List (Word × Word)) :
    boot c size ws = ((createMemory size).bind (hostWrites · ws)).map (newCPU c) := by
  rw [boot, if_pos hc]
  cases createMemory size with
  | none => rfl
  | some m =>
    dsimp only [Option.bind_some]
    cases hostWrites m ws <;> rfl

theorem boot_some {c : Config} {size : Nat} {ws : List (Word × Word)} {s : State} (h : boot c size ws = some s) :
    c.opcodes.Injective ∧
      ∃ m m', createMemory size = some m ∧ hostWrites m ws = some m' ∧ s = newCPU c m' := by
  by_cases hc : c.opcodes.Injective
  · rw [boot_of_injective hc] at h
    obtain ⟨m', hm', rfl⟩ := Option.map_eq_some_iff.1 h
    obtain ⟨m, hm, hws⟩ := Option.bind_eq_some_iff.1 hm'
    exact ⟨hc, m, m', hm, hws, rfl⟩
  · rw [boot, if_neg hc] at h
    cases h

/-- Settles O23: the created memory is canonical and blank, and each property is kept by the writes. -/
theorem bootIsWellFormed : Obligations.BootIsWellFormed := by
  intro c size writes s h
  obtain ⟨hc, m, m', hm, hws, rfl⟩ := boot_some h
  obtain ⟨hlo, hhi, hsize, hw, hblank⟩ := createMemory_some hm
  refine ⟨newCPU_wf hc (hostWrites_wf hw hws), rfl, rfl, (hostWrites_size hws).trans hsize, hlo, hhi, ?_, ?_, ?_⟩
  · exact fun a v hmem => hsize ▸ hostWrites_mem_lt hws hmem
  · exact fun a hno => (hostWrites_read_other hws hno).trans (hblank a)
  · rintro before after a v rfl hlast
    exact hostWrites_read_last hw hws hlast

/-! ### The session's moves -/

theorem hostMove_write_created {m : Memory} (a v : Word) :
    hostMove (.write a v) (.created m) = (hostWrite m a v).map fun m' => (.created m', .done) := by
  unfold hostMove Session.write
  dsimp only
  cases hostWrite m a v <;> rfl

theorem hostMove_write_constructed {s : State} (a v : Word) :
    hostMove (.write a v) (.constructed s) =
      (hostWrite s.mem a v).map fun m' => (.constructed { s with mem := m' }, .done) := by
  unfold hostMove Session.write
  dsimp only
  cases hostWrite s.mem a v <;> rfl

theorem hostMove_write_stepped (s : State) (a v : Word) : hostMove (.write a v) (.stepped s) = none := rfl

/-- Settles O45: before and after construction the move is one write of the memory. -/
theorem hostWritesUntilFirstStep : Obligations.HostWritesUntilFirstStep := by
  refine fun a v => ⟨fun m hw ha => ?_, fun s hw ha => ?_, fun s => hostMove_write_stepped s a v⟩
  · rw [hostMove_write_created, hostWrite_of_lt v ha]
    exact ⟨_, rfl, Memory.read_write_same a v hw, rfl, fun b hb => m.read_write_other v hb⟩
  · rw [hostMove_write_constructed, hostWrite_of_lt v ha]
    exact ⟨_, rfl, Memory.read_write_same a v hw, keepsMemory_of_mem_write rfl, rfl, rfl, rfl⟩

/-- A stepped session stays stepped in every move, and has no write. -/
theorem hostMove_stepped {mv : HostMove} {s : State} {h' : Session} {r : HostReply}
    (h : hostMove mv (.stepped s) = some (h', r)) : (∃ t, h' = .stepped t) ∧ ∀ a v, mv ≠ .write a v := by
  cases mv with
  | write a v => cases h
  | newCPU c =>
    obtain ⟨h1, hc, he⟩ := Option.map_eq_some_iff.1 h
    cases he
    obtain ⟨-, ⟨hno, -⟩ | ⟨-, rfl⟩⟩ := Session.construct_cases hc
    · exact absurd rfl (hno s)
    · exact ⟨⟨_, rfl⟩, nofun⟩
  | call c => cases h; exact ⟨⟨_, rfl⟩, nofun⟩

theorem hostMoves_cons (mv : HostMove) (rest : List HostMove) (h : Session) :
    hostMoves (mv :: rest) h = (hostMove mv h).bind fun p => hostMoves rest p.1 := by
  rw [hostMoves]
  cases hostMove mv h <;> rfl

/-- Settles O46, by induction on the moves. -/
theorem noHostWriteAfterFirstStep : Obligations.NoHostWriteAfterFirstStep := by
  refine ⟨fun s => rfl, fun moves => ?_⟩
  induction moves with
  | nil => intro s h hmoves; cases hmoves; exact ⟨⟨s, rfl⟩, fun a v => List.not_mem_nil⟩
  | cons mv rest ih =>
    intro s h hmoves
    rw [hostMoves_cons] at hmoves
    obtain ⟨⟨h1, r⟩, hmv, hrest⟩ := Option.bind_eq_some_iff.1 hmoves
    obtain ⟨⟨t, rfl⟩, hno⟩ := hostMove_stepped hmv
    obtain ⟨hend, hno'⟩ := ih t h hrest
    refine ⟨hend, fun a v hmem => ?_⟩
    obtain he | hmem := List.mem_cons.1 hmem
    · exact hno a v he.symm
    · exact hno' a v hmem

/-! ### Writes on either side of the construction -/

/-- A list of host writes as moves. -/
def writeMoves (ws : List (Word × Word)) : List HostMove := ws.map fun w => .write w.1 w.2

/-- Before construction, write moves write the memory. -/
theorem hostMoves_writes_created (ws : List (Word × Word)) (rest : List HostMove) (m : Memory) :
    hostMoves (writeMoves ws ++ rest) (.created m) =
      (hostWrites m ws).bind fun m' => hostMoves rest (.created m') := by
  induction ws generalizing m with
  | nil => rfl
  | cons w ws ih =>
    obtain ⟨a, v⟩ := w
    rw [hostWrites_cons, writeMoves, List.map_cons, List.cons_append, hostMoves_cons, hostMove_write_created]
    cases hostWrite m a v with
    | none => rfl
    | some m' => exact ih m'

/-- After construction, write moves write the memory under the new CPU, whose registers depend on its
size alone. -/
theorem hostMoves_writes_newCPU (c : Config) (ws : List (Word × Word)) (m : Memory) :
    hostMoves (writeMoves ws) (.constructed (newCPU c m)) =
      (hostWrites m ws).map fun m' => .constructed (newCPU c m') := by
  induction ws generalizing m with
  | nil => rfl
  | cons w ws ih =>
    obtain ⟨a, v⟩ := w
    rw [hostWrites_cons, writeMoves, List.map_cons, hostMoves_cons, hostMove_write_constructed, newCPU_mem]
    cases h : hostWrite m a v with
    | none => rfl
    | some m' =>
      obtain ⟨-, rfl⟩ := hostWrite_some h
      exact ih (m.write a v)

/-- Settles O47: the moves are the writes before and the writes after, and so are those of `boot`. -/
theorem writesBeforeOrAfterConstruction : Obligations.WritesBeforeOrAfterConstruction := by
  intro c size m before after hc hm
  have hconstruct : ∀ m', hostMoves (.newCPU c :: writeMoves after) (.created m') =
      (hostWrites m' after).map fun m'' => .constructed (newCPU c m'') := by
    intro m'
    rw [hostMoves_cons, ← hostMoves_writes_newCPU]
    simp only [hostMove, Session.construct, if_pos hc, Option.map_some, Option.bind_some]
  rw [boot_of_injective hc, hm, Option.bind_some, hostWrites_append, Option.map_map]
  refine (hostMoves_writes_created before _ m).trans ?_
  cases hostWrites m before with
  | none => rfl
  | some m' => exact hconstruct m'

/-! ### The session's invariant -/

/-- A call keeps the invariant of the state and the size of its memory. -/
theorem hostCall_keeps {s : State} (c : HostCall) (hw : s.wf = true) :
    (hostCall c s).1.wf = true ∧ (hostCall c s).1.mem.size = s.mem.size := by
  obtain he | ⟨-, hstep⟩ := hostCall_fst_cases c s
  · rw [he]
    exact ⟨hw, rfl⟩
  · exact ⟨stepKeepsWellFormed s _ hw hstep,
      Memory.size_eq_of_last_eq (stepKeepsParameters s _ hstep).2⟩

theorem Session.wf_constructed_iff (s : State) :
    (Session.constructed s).wf = true ↔ s.wf = true ∧ s = newCPU s.config s.mem := by
  simp [Session.wf]

theorem Session.wf_constructed_newCPU {c : Config} {m : Memory} (hc : c.opcodes.Injective) (hm : m.wf = true) :
    (Session.constructed (newCPU c m)).wf = true :=
  (Session.wf_constructed_iff _).2 ⟨newCPU_wf hc hm, rfl⟩

theorem Session.memory_wf {h : Session} (hw : h.wf = true) : h.memory.wf = true := by
  cases h with
  | created m => exact hw
  | constructed s => exact (s.wf_iff.1 ((Session.wf_constructed_iff s).1 hw).1).1
  | stepped s => exact (s.wf_iff.1 hw).1

/-- Settles O48: a write keeps canonical memory under a new CPU, a construction makes a new CPU on it, and a call is a
query or a step. -/
theorem hostMovesKeepWellFormed : Obligations.HostMovesKeepWellFormed := by
  intro mv h h' r hw hmv
  cases mv with
  | write a v =>
    obtain ⟨h1, hwrite, he⟩ := Option.map_eq_some_iff.1 hmv
    cases he
    obtain ⟨m, rfl, ha, rfl⟩ | ⟨s, rfl, ha, rfl⟩ := Session.write_cases hwrite
    · exact ⟨Memory.write_wf v ((m.has_iff a).2 ha) hw, rfl⟩
    · obtain ⟨hs, hnew⟩ := (Session.wf_constructed_iff s).1 hw
      obtain ⟨hmem, hinj, -⟩ := s.wf_iff.1 hs
      refine ⟨?_, rfl⟩
      rw [hnew]
      exact Session.wf_constructed_newCPU hinj (Memory.write_wf v ((s.mem.has_iff a).2 ha) hmem)
  | newCPU c =>
    obtain ⟨h1, hnew, he⟩ := Option.map_eq_some_iff.1 hmv
    cases he
    obtain ⟨hinj, ⟨-, rfl⟩ | ⟨-, rfl⟩⟩ := Session.construct_cases hnew
    · exact ⟨Session.wf_constructed_newCPU hinj (Session.memory_wf hw), rfl⟩
    · exact ⟨newCPU_wf hinj (Session.memory_wf hw), rfl⟩
  | call c =>
    obtain ⟨s, -, ⟨rfl, -, rfl⟩ | ⟨rfl, hc, rfl⟩ | ⟨rfl, rfl⟩⟩ := Session.call_cases hmv
    · exact hostCall_keeps c ((Session.wf_constructed_iff s).1 hw).1
    · rw [hostCall_fst_of_ne_step hc]
      exact ⟨hw, rfl⟩
    · exact hostCall_keeps c hw

end Sys2Proof.Machine
end
